-- ==== Sys2Proof/Word.lean ====
section
/-! DEFINITION. The two sizes of value the hardware has (spec/00_scope.md R6, R7): a byte and an address. -/

namespace Sys2Proof

/-- `DATA_WIDTH` = 8: a memory cell, `sp`, `a`, `x`, `y`, an opcode (R6). -/
abbrev Byte := BitVec 8

/-- `ADDR_WIDTH` = 16: an address, `pc`, a word of two bytes (R6). -/
abbrev Word := BitVec 16

end Sys2Proof
end

