-- ==== Sys2Proof/Machine/Encoding.lean ====
section
/-! DEFINITION. The opcode bytes of the map (spec/30_encoding.md R85, R86), the instruction length (R83), and the
byte-order helpers (R7, R56) that the decoder, the encoder and the operations share. -/

namespace Sys2Proof.Machine

def opLdaImm : Byte := 0xA9#8
def opLdaZp : Byte := 0xA5#8
def opLdaZpx : Byte := 0xB5#8
def opJsr : Byte := 0x20#8

/-- The byte is one of the four opcodes of R85; every other byte is an unhandled opcode (R86). -/
def isHandled (op : Byte) : Bool :=
  op == opLdaImm || op == opLdaZp || op == opLdaZpx || op == opJsr

/-- The length of an instruction in bytes, a function of its opcode byte alone (R83). -/
def instrLength (op : Byte) : Nat :=
  if op = opJsr then 3
  else if op = opLdaImm ∨ op = opLdaZp ∨ op = opLdaZpx then 2
  else 1

/-- The cycles an instruction costs in all, a function of its opcode byte alone (R85, R210). -/
def cycleCost (op : Byte) : Nat :=
  if op = opLdaImm then 2
  else if op = opLdaZp then 3
  else if op = opLdaZpx then 4
  else if op = opJsr then 6
  else 1

/-- `v[7:0]` of a word (R7). -/
def lowByte (v : Word) : Byte := v.extractLsb' 0 8

/-- `v[15:8]` of a word (R7). -/
def highByte (v : Word) : Byte := v.extractLsb' 8 8

/-- `hi ++ lo`: two bytes as a word, the first byte of the stream the low one (R56, R84, R102). -/
def joinWord (lo hi : Byte) : Word := hi ++ lo

/-- `zext_16(v)` of a byte (R7). -/
def zext16 (v : Byte) : Word := v.zeroExtend 16

end Sys2Proof.Machine
end

