-- ==== Sys2Proof/Config.lean ====
section
/-! DEFINITION. The parameters of the hardware (spec/00_scope.md R6) and the free values: what the spec leaves
undefined before the first reset. `CYC_WIDTH` (open, decision D7) is no constant here: it is an argument of the
definitions of Safety.lean that speak of it. -/

namespace Sys2Proof

/-- `SIZE`: the number of memory cells (R6, R50). -/
def Config.memSize : Nat := 65536

/-- `RESET_PC`: the value of `pc` after reset and the address of the first opcode (R6, R36). -/
def Config.resetPc : Word := 0xFFFC#16

/-- `RESET_SP`: the value of `sp` after reset (R6, R33). -/
def Config.resetSp : Byte := 0xFF#8

/-- `STACK_BASE`: the base of a push address (R6, R62; the spec's decision D2). -/
def Config.stackBase : Word := 0x0000#16

/-- What a cell holds after construction and after `init` (R55, R71): the byte of every unlisted address. -/
def Config.unlistedByte : Byte := 0x00#8

/-- The most cycles one instruction costs, JSR's 6 (R210). -/
def Config.maxCost : Nat := 6

/-- FREE VALUE: `pc` between construction and the first reset (R34, U2; log entry 7). -/
opaque Config.undefinedPc : Word

/-- FREE VALUE: the byte registers between construction and the first reset, by number: 0 is `sp`, 1 `a`, 2 `x`,
3 `y` (R34, U2; log entry 7). -/
opaque Config.undefinedByte : Nat → Byte

/-- FREE VALUE: the flags between construction and the first reset, in the order of R20's list (R34, U2; log entry 7). -/
opaque Config.undefinedFlag : Nat → Bool

/-- FREE VALUE: `cyc` before the first `execute` of a constructed core (R33: "no value"; log entry 7). -/
opaque Config.undefinedCyc : Nat

end Sys2Proof
end

