-- ==== Sys2Proof/Machine/State.lean ====
section
/-! DEFINITION. Everything the spec gives the machine as state (spec/00_scope.md R12, spec/10_state.md R20), as plain
data, with the state after reset and the state after construction, and the reasons a step or a command can stop. -/

namespace Sys2Proof.Machine

/-- The run status (R32). -/
inductive RunStatus where
  /-- Constructed, never reset; the registers hold no defined value. -/
  | unreset
  /-- Reset done, or the last run ended with `cyc = 0`; the host may access state. -/
  | idle
  /-- An `execute` command is in progress; only the core moves. -/
  | running
  /-- A `BudgetUnderflow` stopped the core; state is frozen and readable. -/
  | halted
deriving DecidableEq, Repr

/-- The seven independent one-bit flags (R26); there is no packed status byte (decision D14). -/
structure Flags where
  carry : Bool
  zero : Bool
  interruptDisable : Bool
  decimal : Bool
  /-- The spec's `flag.break`. -/
  brk : Bool
  overflow : Bool
  negative : Bool
deriving DecidableEq, Repr

/-- The 65536 cells (R50), as the list of those that do not hold `Config.unlistedByte`. -/
abbrev Memory := List Host.Cell

/-- The one canonical form: addresses strictly rising and inside the address space, and no entry equal to what an
unlisted address reads as. -/
def Memory.wf (m : Memory) : Bool :=
  decide (m.Pairwise (fun c d => c.1 < d.1) ∧ ∀ c ∈ m, c.1 < Config.memSize ∧ c.2 ≠ Config.unlistedByte)

structure State where
  /-- Address of the next instruction byte to fetch (R21). -/
  pc : Word
  /-- Stack pointer, an offset (R24). -/
  sp : Byte
  /-- Accumulator (R23). -/
  a : Byte
  /-- Index register (R23). -/
  x : Byte
  /-- Index register, read and written by no instruction (R23). -/
  y : Byte
  flags : Flags
  /-- Remaining cycle budget (R31), a natural number (decision D7; log entry 5). -/
  cyc : Nat
  status : RunStatus
  mem : Memory
deriving DecidableEq, Repr

/-- The one fault (R161). -/
inductive Fault where
  /-- Raised by a `Spend(needed)` that finds only `left < needed` cycles (R100), before what it pays for. `frozen`
  is the state the spec says the fault leaves (R104, R161): what came before it done, nothing after it, status
  HALTED. SAFE where the repository's code wraps its counter and runs on (decision D6; log entry 4). -/
  | budgetUnderflow (needed left : Nat) (frozen : State)
deriving DecidableEq, Repr

/-- Commands that are not accepted, by name. No instruction raises one. -/
inductive Refusal where
  /-- An instruction that has no meaning yet. No arm raises it: every instruction has its meaning. SAFE. -/
  | notModelled (mnemonic : String)
  /-- `execute` given in UNRESET (R201); raised by the command. SAFE: no run starts. -/
  | executeUnreset
  /-- `execute` given in HALTED (R201, R162); raised by the command. SAFE: no run starts. -/
  | executeHalted
  /-- Any move of the host while RUNNING (R11, R66, R193); raised by commands and queries. SAFE: the spec says the host
  has no such move. -/
  | hostWhileRunning
  /-- A register or flag write of the host in UNRESET (R199); raised by the command. SAFE: no state changes. -/
  | writeUnreset
deriving DecidableEq, Repr

/-- Seven flags at 0 (R33). -/
def Flags.clear : Flags :=
  { carry := false, zero := false, interruptDisable := false, decimal := false, brk := false, overflow := false,
    negative := false }

/-- The machine right after reset (R33, R191). `cyc` is not touched by reset and has no value of its own until the
next `execute`; 0 here is the model's choice (DESIGN CHOICE, log entry 6). -/
def State.reset : State :=
  { pc := Config.resetPc, sp := Config.resetSp, a := 0#8, x := 0#8, y := 0#8, flags := Flags.clear, cyc := 0,
    status := .idle, mem := [] }

/-- The machine after construction, before any reset (R34, R190): memory all zero, everything else undefined, which
is a free value for each register and flag (log entry 7). -/
def State.constructed : State :=
  { pc := Config.undefinedPc
    sp := Config.undefinedByte 0
    a := Config.undefinedByte 1
    x := Config.undefinedByte 2
    y := Config.undefinedByte 3
    flags :=
      { carry := Config.undefinedFlag 0, zero := Config.undefinedFlag 1
        interruptDisable := Config.undefinedFlag 2, decimal := Config.undefinedFlag 3
        brk := Config.undefinedFlag 4, overflow := Config.undefinedFlag 5
        negative := Config.undefinedFlag 6 }
    cyc := Config.undefinedCyc
    status := .unreset
    mem := [] }

def State.setPc (s : State) (v : Word) : State := { s with pc := v }
def State.setSp (s : State) (v : Byte) : State := { s with sp := v }
def State.setA (s : State) (v : Byte) : State := { s with a := v }
def State.setX (s : State) (v : Byte) : State := { s with x := v }
def State.setY (s : State) (v : Byte) : State := { s with y := v }
def State.setFlags (s : State) (v : Flags) : State := { s with flags := v }
def State.setCyc (s : State) (v : Nat) : State := { s with cyc := v }
def State.setStatus (s : State) (v : RunStatus) : State := { s with status := v }
def State.setMem (s : State) (v : Memory) : State := { s with mem := v }

end Sys2Proof.Machine
end

