-- ==== Sys2Proof/Machine/Ops.lean ====
section
/-! DEFINITION. The primitives every instruction rule is written with (spec/00_scope.md R9): memory (spec/20_memory.md
R52 to R54), the fault (spec/60_exceptions.md R161), `Spend`, `FetchByte`, `FetchWord`, `WriteWord`
(spec/40_fetch_execute.md R100 to R103) and the push address (R62). There is no return from an exception (R165). -/

namespace Sys2Proof.Machine

/-- What a primitive, an instruction or a command answers. -/
abbrev Result (α : Type) := Host.Outcome α Fault Refusal

/-- The statements of a rule in sequence: after a fault the rest is not performed (R9, R104). -/
def andThen {α β : Type} (r : Result α) (k : α → Result β) : Result β :=
  match r with
  | .next v => k v
  | .fault f => .fault f
  | .refused e => .refused e

/-- A cell by the number of its address. -/
def readCell : Memory → Nat → Byte
  | [], _ => Config.unlistedByte
  | (k, v) :: rest, n => if k = n then v else readCell rest n

/-- Set a cell, keeping the canonical form: writing what an unlisted cell reads as removes the entry. -/
def writeCell : Memory → Nat → Byte → Memory
  | [], n, v => if v = Config.unlistedByte then [] else [(n, v)]
  | (k, w) :: rest, n, v =>
    if n < k then
      if v = Config.unlistedByte then (k, w) :: rest else (n, v) :: (k, w) :: rest
    else if n = k then
      if v = Config.unlistedByte then rest else (n, v) :: rest
    else (k, w) :: writeCell rest n v

/-- `MemRead(addr, 1)` (R52): always succeeds, costs no cycle by itself. -/
def memRead (m : Memory) (addr : Word) : Byte := readCell m addr.toNat

/-- `MemWrite(addr, 1, v)` (R53). -/
def memWrite (m : Memory) (addr : Word) (v : Byte) : Memory := writeCell m addr.toNat v

/-- `MemWrite(addr, 2, v)` (R54): the low byte at `addr`, then the high byte at `(addr + 1) mod 65536`. -/
def memWriteWord (m : Memory) (addr : Word) (v : Word) : Memory :=
  memWrite (memWrite m addr (lowByte v)) (addr + 1#16) (highByte v)

/-- `raise BudgetUnderflow(needed, left)` (R161): the machine's one exception. The core stops as it stands, HALTED;
there is no vector and nothing is saved (R165). -/
def raiseBudgetUnderflow {α : Type} (needed : Nat) (s : State) : Result α :=
  .fault (.budgetUnderflow needed s.cyc (s.setStatus .halted))

/-- `Spend(n)` (R100): check first, then lower the budget. -/
def spend (n : Nat) (s : State) : Result State :=
  if s.cyc < n then raiseBudgetUnderflow n s else .next (s.setCyc (s.cyc - n))

/-- `FetchByte(advance, addr?)` (R101), for every combination the rule defines. -/
def fetchByte (advance : Bool) (addr? : Option Word) (s : State) : Result (Byte × State) :=
  andThen (spend 1 s) fun s1 =>
    .next (memRead s1.mem (addr?.getD s1.pc), if advance then s1.setPc (s1.pc + 1#16) else s1)

/-- `FetchWord()` (R102): two fetches, each paid for by itself, low byte first. -/
def fetchWord (s : State) : Result (Word × State) :=
  andThen (fetchByte true none s) fun lo =>
    andThen (fetchByte true none lo.2) fun hi =>
      .next (joinWord lo.1 hi.1, hi.2)

/-- `WriteWord(addr, v)` (R103): one check of 2 cycles before either byte is written. -/
def writeWord (addr v : Word) (s : State) : Result State :=
  andThen (spend 2 s) fun s1 => .next (s1.setMem (memWriteWord s1.mem addr v))

/-- The opcode fetch at the top of an iteration (R110 step 1). The byte is the one the instruction was decoded from
(log entry 3), so only the effect is kept. -/
def fetchOpcode (s : State) : Result State :=
  andThen (fetchByte true none s) fun r => .next r.2

/-- The address of a push (R62, R140): `(base + zext_16(sp)) mod 65536`, with the decremented `sp`. -/
def pushAddress (base : Word) (sp : Byte) : Word := base + zext16 sp

end Sys2Proof.Machine
end

