-- ==== Sys2Proof/Machine/Flags.lean ====
section
/-! DEFINITION. The one flag computation of the hardware, the load rule `SetZN` (spec/41_load.md R130). -/

namespace Sys2Proof.Machine

/-- The flags after a load of `v` (R130): zero and negative written, the other five kept. -/
def flagsZN (v : Byte) (f : Flags) : Flags :=
  { f with zero := decide (v = 0#8), negative := v.getLsbD 7 }

/-- `SetZN(v)` (R130). -/
def setZN (v : Byte) (s : State) : State := s.setFlags (flagsZN v s.flags)

end Sys2Proof.Machine
end

