-- ==== Sys2Proof/Machine/Operands.lean ====
section
/-! DEFINITION. The four addressing modes (spec/40_fetch_execute.md R105 to R109), each the sequence of primitives its
rule gives, after the opcode fetch. The operand bytes are those the instruction was decoded from (log entry 3): each
`fetchByte true none` here pays for one of them and moves `pc` past it. -/

namespace Sys2Proof.Machine

/-- Immediate (R106). -/
def operandImmediate (imm8 : Byte) (s : State) : Result (Byte × State) :=
  andThen (fetchByte true none s) fun r => .next (imm8, r.2)

/-- Zero Page (R107). -/
def operandZeroPage (zp8 : Byte) (s : State) : Result (Byte × State) :=
  andThen (fetchByte true none s) fun r => fetchByte false (some (zext16 zp8)) r.2

/-- The effective address of Zero Page,X: an 8-bit sum whose carry is dropped (R108). -/
def zeroPageXAddress (base8 x : Byte) : Word := zext16 (base8 + x)

/-- Zero Page,X (R108): the internal cycle of the addition comes before the data read. -/
def operandZeroPageX (base8 : Byte) (s : State) : Result (Byte × State) :=
  andThen (fetchByte true none s) fun r =>
    andThen (spend 1 r.2) fun s2 => fetchByte false (some (zeroPageXAddress base8 s2.x)) s2

/-- Absolute (R109): the address itself, not what it holds. -/
def operandAbsolute (target : Word) (s : State) : Result (Word × State) :=
  andThen (fetchWord s) fun r => .next (target, r.2)

end Sys2Proof.Machine
end

