-- ==== Sys2Proof/Machine/Load.lean ====
section
/-! DEFINITION. The three LDA instructions (spec/41_load.md R131 to R133). Each meaning is one whole iteration of the
loop (R117): it starts with `pc` at the opcode and makes the opcode fetch itself. -/

namespace Sys2Proof.Machine

/-- `a <- v; SetZN(a)`, the end of every LDA form (R130). -/
def loadAccumulator (v : Byte) (s : State) : State := setZN v (s.setA v)

/-- LDA immediate, opcode `0xA9` (R131). -/
def execLdaImm (imm8 : Byte) (s : State) : Result State :=
  andThen (fetchOpcode s) fun s1 =>
    andThen (operandImmediate imm8 s1) fun r => .next (loadAccumulator r.1 r.2)

/-- LDA zero page, opcode `0xA5` (R132). -/
def execLdaZp (zp8 : Byte) (s : State) : Result State :=
  andThen (fetchOpcode s) fun s1 =>
    andThen (operandZeroPage zp8 s1) fun r => .next (loadAccumulator r.1 r.2)

/-- LDA zero page,X, opcode `0xB5` (R133). -/
def execLdaZpx (base8 : Byte) (s : State) : Result State :=
  andThen (fetchOpcode s) fun s1 =>
    andThen (operandZeroPageX base8 s1) fun r => .next (loadAccumulator r.1 r.2)

end Sys2Proof.Machine
end

