-- ==== Sys2Proof/Machine/Subroutine.lean ====
section
/-! DEFINITION. JSR (spec/42_subroutine.md R140), one whole iteration of the loop with its opcode fetch. -/

namespace Sys2Proof.Machine

/-- JSR with a given stack base: the micro-operations of R140 in their order. `ret` is the address of the
instruction's last byte. -/
def jsrWithBase (base target : Word) (s : State) : Result State :=
  andThen (fetchOpcode s) fun s1 =>
    andThen (operandAbsolute target s1) fun r =>
      let s2 := r.2.setSp (r.2.sp - 1#8)
      let ret := s2.pc - 1#16
      andThen (writeWord (pushAddress base s2.sp) ret s2) fun s3 =>
        andThen (spend 1 s3) fun s4 => .next (s4.setPc r.1)

/-- JSR absolute, opcode `0x20` (R140), with `STACK_BASE` of R6. -/
def execJsr (target : Word) (s : State) : Result State := jsrWithBase Config.stackBase target s

end Sys2Proof.Machine
end

