-- ==== Sys2Proof/Syntax.lean ====
section
/-! DEFINITION. The instructions (spec/30_encoding.md R85, spec/opcode_table.json). The table's 252 UNHANDLED rows
are one instruction in R85 ("the fifth row stands for all other byte values") with one rule, R150; the constructor
`unhandled` carries the opcode byte, so each of those rows has an instruction of its own. -/

namespace Sys2Proof

inductive Instr where
  /-- LDA immediate, `A9 imm8` (R131). -/
  | ldaImm (imm8 : Byte)
  /-- LDA zero page, `A5 zp8` (R132). -/
  | ldaZp (zp8 : Byte)
  /-- LDA zero page,X, `B5 base8` (R133). -/
  | ldaZpx (base8 : Byte)
  /-- JSR absolute, `20 lo8 hi8`, with `target = hi8 ++ lo8` (R140, R84). -/
  | jsr (target : Word)
  /-- An unhandled opcode: any byte but `A9`, `A5`, `B5`, `20` (R150, R86). -/
  | unhandled (op : Byte)
deriving DecidableEq, Repr

end Sys2Proof
end

