-- ==== Sys2Proof/Machine/Unhandled.lean ====
section
/-! DEFINITION. The unhandled opcodes (spec/43_unhandled.md R150) and the report they may emit
(spec/60_exceptions.md R164). -/

namespace Sys2Proof.Machine

/-- An unhandled opcode (R150): the opcode fetch of the iteration and nothing else. Its report is no state
(`reportOf`). -/
def execUnhandled (_op : Byte) (s : State) : Result State := fetchOpcode s

/-- `UnhandledOpcode(op, at)` (R164; content by the spec's decision D15). -/
structure Report where
  op : Byte
  addr : Word
deriving DecidableEq, Repr

/-- The report of the iteration that performs `i` from `s`, where one is emitted (R164). -/
def reportOf (i : Instr) (s : State) : Option Report :=
  match i with
  | .unhandled op => some { op := op, addr := s.pc }
  | .ldaImm _ | .ldaZp _ | .ldaZpx _ | .jsr _ => none

end Sys2Proof.Machine
end

