-- ==== Sys2Proof/Machine/Dispatch.lean ====
section
/-! DEFINITION. The dispatch (spec/40_fetch_execute.md R111): one arm per instruction. -/

namespace Sys2Proof.Machine

def exec (i : Instr) (s : State) : Host.Outcome State Fault Refusal :=
  match i with
  | .ldaImm imm8 => Sys2Proof.Machine.execLdaImm imm8 s
  | .ldaZp zp8 => Sys2Proof.Machine.execLdaZp zp8 s
  | .ldaZpx base8 => Sys2Proof.Machine.execLdaZpx base8 s
  | .jsr target => Sys2Proof.Machine.execJsr target s
  | .unhandled op => Sys2Proof.Machine.execUnhandled op s

end Sys2Proof.Machine
end

