-- ==== Sys2Proof/WellFormed.lean ====
section
/-! DEFINITION. Which instruction terms are instructions of the hardware. Operand bytes and the target take every
value (spec/30_encoding.md R84, spec/42_subroutine.md R143); the one check is that `unhandled` carries an unhandled
opcode (R86). -/

namespace Sys2Proof

def Instr.wellFormed : Instr → Bool
  | .ldaImm _ => true
  | .ldaZp _ => true
  | .ldaZpx _ => true
  | .jsr _ => true
  | .unhandled op => !Machine.isHandled op

abbrev WellFormed (i : Instr) : Prop := i.wellFormed = true

end Sys2Proof
end

