-- ==== Sys2Proof/Decode.lean ====
section
/-! DEFINITION. The decoder (spec/30_encoding.md R80 to R87), total on any bytes and refusing by name only where
bytes are missing, and the encoder, written from the same formats (R81). -/

namespace Sys2Proof

open Machine

/-- Why a list of bytes holds no whole instruction. No byte value is refused: every opcode byte decodes (R87). -/
inductive DecodeError where
  /-- No byte at all. -/
  | noOpcode
  /-- The opcode's format (R81) has operand bytes that the list does not hold. -/
  | missingOperand (op : Byte)
deriving DecidableEq, Repr

/-- The instruction whose bytes are `b0`, `b1`, `b2` in address order; bytes past its length (R83) are not looked
at. The whole opcode byte is compared with the four values of the map (R82, R85, R111). -/
def decodeBytes (b0 b1 b2 : Byte) : Instr :=
  if b0 = opLdaImm then .ldaImm b1
  else if b0 = opLdaZp then .ldaZp b1
  else if b0 = opLdaZpx then .ldaZpx b1
  else if b0 = opJsr then .jsr (joinWord b1 b2)
  else .unhandled b0

/-- The first instruction of a list of bytes, and the bytes after it. -/
def decode : List Byte → Except DecodeError (Instr × List Byte)
  | [] => .error .noOpcode
  | op :: rest =>
    if rest.length + 1 < instrLength op then .error (.missingOperand op)
    else .ok (decodeBytes op (rest.getD 0 0#8) (rest.getD 1 0#8), rest.drop (instrLength op - 1))

/-- Byte 0 of the instruction's format (R81). -/
def opcodeOf : Instr → Byte
  | .ldaImm _ => opLdaImm
  | .ldaZp _ => opLdaZp
  | .ldaZpx _ => opLdaZpx
  | .jsr _ => opJsr
  | .unhandled op => op

/-- The bytes of an instruction in address order (R81): JSR's low operand byte comes first. -/
def encode : Instr → List Byte
  | .ldaImm imm8 => [opLdaImm, imm8]
  | .ldaZp zp8 => [opLdaZp, zp8]
  | .ldaZpx base8 => [opLdaZpx, base8]
  | .jsr target => [opJsr, lowByte target, highByte target]
  | .unhandled op => [op]

/-- The three bytes, lowest address first, of an instruction given as a number whose bit 0 is the least significant
bit of the first byte; bits from `nbits` up are 0. -/
def tableBytes (nbits w : Nat) : List Byte :=
  [0, 1, 2].map fun k => BitVec.ofNat 8 (w % 2 ^ nbits / 2 ^ (8 * k))

/-- What the decoder reads from an instruction numbered as spec/opcode_table.json numbers its bits. -/
def decodeTableWord (nbits w : Nat) : Option Instr :=
  match decode (tableBytes nbits w) with
  | .ok (i, _) => some i
  | .error _ => none

end Sys2Proof
end

