-- ==== Sys2Proof/Machine/Fetch.lean ====
section
/-! DEFINITION. Reading the instruction at `pc` out of memory (spec/30_encoding.md R80, R87; spec/20_memory.md R68), and
placing one there. -/

namespace Sys2Proof.Machine

/-- The instruction whose opcode byte is at `pc`, its operand bytes at the following addresses modulo 65536 (R80).
The look is free and changes nothing: the instruction's own fetches pay for the bytes (log entry 3). -/
def fetchInstr (s : State) : Instr :=
  decodeBytes (memRead s.mem s.pc) (memRead s.mem (s.pc + 1#16)) (memRead s.mem (s.pc + 2#16))

/-- The bytes stored at consecutive addresses modulo 65536, as the host stores a program (R198). -/
def placeBytes : List Byte → Word → Memory → Memory
  | [], _, m => m
  | b :: rest, addr, m => placeBytes rest (addr + 1#16) (memWrite m addr b)

/-- The bytes stored at `pc` and a run under way whose budget pays for any one instruction: what the host's load
(R198) and its `execute` (R200) leave (log entry 10). -/
def launchBytes (bytes : List Byte) (s : State) : State :=
  ((s.setMem (placeBytes bytes s.pc s.mem)).setStatus .running).setCyc (max s.cyc Config.maxCost)

end Sys2Proof.Machine
end

