-- ==== Sys2Proof/Machine/Step.lean ====
section
/-! DEFINITION. One step of the core (spec/40_fetch_execute.md R117): one iteration of the execute loop of R110, the
normal end of a run (R112 (a)), or nothing while the core is not running (spec/60_exceptions.md R162, R173). -/

namespace Sys2Proof.Machine

def step (s : State) : Host.Outcome State Fault Refusal :=
  match s.status with
  | .running => if s.cyc = 0 then .next (s.setStatus .idle) else exec (fetchInstr s) s
  | .unreset | .idle | .halted => .next s

/-- The state with one instruction, numbered as spec/opcode_table.json numbers its bits, at `pc`, and the run under
way that performs it (log entry 10). -/
def State.withFetchWord (s : State) (nbits w : Nat) : State := launchBytes (tableBytes nbits w) s

end Sys2Proof.Machine
end

