-- ==== Sys2Proof/Machine/Commands.lean ====
section
/-! DEFINITION. What the host can do to the machine between runs (spec/70_reset_and_hazards.md R190 to R201): the two
commands `reset` and `execute`, and its access to cells, registers and flags. -/

namespace Sys2Proof.Machine

/-- A flag by name (R8). -/
inductive FlagName where
  | carry | zero | interruptDisable | decimal | brk | overflow | negative
deriving DecidableEq, Repr

/-- The host's moves that change state (R191, R198 to R200). -/
inductive Command where
  /-- `reset` (R191). -/
  | reset
  /-- `execute(budget)`: the launch of a run (R110, R200). -/
  | execute (budget : Nat)
  /-- A cell write (R198). -/
  | writeCell (addr : Word) (v : Byte)
  /-- Register and flag writes (R199). -/
  | writePc (v : Word)
  | writeSp (v : Byte)
  | writeA (v : Byte)
  | writeX (v : Byte)
  | writeY (v : Byte)
  | writeFlag (f : FlagName) (b : Bool)
deriving DecidableEq, Repr

/-- The host's reads (R198, R199). -/
inductive Query where
  | cell (addr : Word)
  | pc | sp | a | x | y
  | flag (f : FlagName)
  | cyc | status
deriving DecidableEq, Repr

inductive Answer where
  | word (v : Word)
  | byte (v : Byte)
  | bit (b : Bool)
  | count (n : Nat)
  | status (r : RunStatus)
deriving DecidableEq, Repr

def Flags.get (f : Flags) : FlagName → Bool
  | .carry => f.carry
  | .zero => f.zero
  | .interruptDisable => f.interruptDisable
  | .decimal => f.decimal
  | .brk => f.brk
  | .overflow => f.overflow
  | .negative => f.negative

def Flags.set (f : Flags) (n : FlagName) (b : Bool) : Flags :=
  match n with
  | .carry => { f with carry := b }
  | .zero => { f with zero := b }
  | .interruptDisable => { f with interruptDisable := b }
  | .decimal => { f with decimal := b }
  | .brk => { f with brk := b }
  | .overflow => { f with overflow := b }
  | .negative => { f with negative := b }

/-- The effect of `reset` (R191): everything at its reset value and memory cleared, but `cyc`, which reset does not
touch (R33). -/
def resetEffect (s : State) : State := State.reset.setCyc s.cyc

/-- The effect of a launch (R110): the budget loaded, the run under way. -/
def launchEffect (budget : Nat) (s : State) : State := (s.setCyc budget).setStatus .running

/-- A write of R199: refused before the first reset. -/
def registerWrite (s t : State) : Result State :=
  match s.status with
  | .unreset => .refused .writeUnreset
  | .running => .refused .hostWhileRunning
  | .idle | .halted => .next t

/-- `execute(budget)` is accepted only in IDLE (R200, R201). -/
def launch (budget : Nat) (s : State) : Result State :=
  match s.status with
  | .unreset => .refused .executeUnreset
  | .halted => .refused .executeHalted
  | .running => .refused .hostWhileRunning
  | .idle => .next (launchEffect budget s)

/-- `reset` and cell writes are accepted whenever the core is not running (R193, R198). -/
def whileStopped {α : Type} (s : State) (v : α) : Result α :=
  match s.status with
  | .running => .refused .hostWhileRunning
  | .unreset | .idle | .halted => .next v

/-- One move of the host. -/
def command (c : Command) (s : State) : Result State :=
  match c with
  | .reset => whileStopped s (resetEffect s)
  | .execute budget => launch budget s
  | .writeCell addr v => whileStopped s (s.setMem (memWrite s.mem addr v))
  | .writePc v => registerWrite s (s.setPc v)
  | .writeSp v => registerWrite s (s.setSp v)
  | .writeA v => registerWrite s (s.setA v)
  | .writeX v => registerWrite s (s.setX v)
  | .writeY v => registerWrite s (s.setY v)
  | .writeFlag f b => registerWrite s (s.setFlags (s.flags.set f b))

/-- What a query finds. -/
def answer (q : Query) (s : State) : Answer :=
  match q with
  | .cell addr => .byte (memRead s.mem addr)
  | .pc => .word s.pc
  | .sp => .byte s.sp
  | .a => .byte s.a
  | .x => .byte s.x
  | .y => .byte s.y
  | .flag f => .bit (s.flags.get f)
  | .cyc => .count s.cyc
  | .status => .status s.status

/-- One read of the host. In UNRESET a register read gives the undefined value the state holds (R34, U2). -/
def query (q : Query) (s : State) : Result Answer := whileStopped s (answer q s)

end Sys2Proof.Machine
end

