-- ==== Sys2Proof/Machine/Run.lean ====
section
/-! DEFINITION. A whole run (spec/40_fetch_execute.md R110, R112) and the reports it emits (R164). Every iteration
lowers `cyc`, so a run of budget `B` takes at most `B` iterations and one step for its end: `B + 1` steps. -/

namespace Sys2Proof.Machine

/-- Steps of the core until it no longer runs, at most as many as the first argument says. -/
def runLoop : Nat → State → Result State
  | 0, s => .next s
  | n + 1, s =>
    match s.status with
    | .running => andThen (step s) (runLoop n)
    | .unreset | .idle | .halted => .next s

/-- The `execute(budget)` command with the whole run it starts (R110). -/
def executeRun (budget : Nat) (s : State) : Result State :=
  andThen (command (.execute budget) s) (runLoop (budget + 1))

/-- The state the host finds after a move from `s` (R197): a fault leaves the frozen state (R161, R162), a refused
command leaves everything as it was (R201). -/
def stateLeft (s : State) (r : Result State) : State :=
  match r with
  | .next t => t
  | .fault (.budgetUnderflow _ _ frozen) => frozen
  | .refused _ => s

/-- One move of the host to its end: `execute` with its whole run, every other command by itself. -/
def hostMove (s : State) (c : Command) : State :=
  match c with
  | .execute budget => stateLeft s (executeRun budget s)
  | .reset | .writeCell _ _ | .writePc _ | .writeSp _ | .writeA _ | .writeX _ | .writeY _ | .writeFlag _ _ =>
    stateLeft s (command c s)

/-- A sequence of host moves, such as the boot sequence of R194. -/
def session (cs : List Command) (s : State) : State := cs.foldl hostMove s

/-- The cycles of the first `k` instructions the core meets from `s`, by the cost table (R210, R115): each is performed
with exactly its cost as the budget. -/
def costOfFirst : Nat → State → Nat
  | 0, _ => 0
  | k + 1, s =>
    let cost := cycleCost (memRead s.mem s.pc)
    match exec (fetchInstr s) (s.setCyc cost) with
    | .next t => cost + costOfFirst k t
    | .fault _ | .refused _ => 0

/-- The report of the next step, where it emits one: an iteration is performed and its opcode is unhandled (R164). -/
def reportAt (s : State) : Option Report :=
  match s.status with
  | .running => if s.cyc = 0 then none else reportOf (fetchInstr s) s
  | .unreset | .idle | .halted => none

/-- The reports of at most that many steps, oldest first. -/
def runReports : Nat → State → List Report
  | 0, _ => []
  | n + 1, s =>
    match step s with
    | .next t => (reportAt s).toList ++ runReports n t
    | .fault _ | .refused _ => (reportAt s).toList

end Sys2Proof.Machine
end

