-- ==== Sys2Proof/Safety.lean ====
section
/-! DEFINITION. What counts as a safe run, in the terms the statements use. -/

namespace Sys2Proof.Machine

/-- The memory is in its one canonical form, and the two result flags are not both 1, which no load leaves
(spec/41_load.md R130). -/
structure State.Inv (s : State) : Prop where
  memWf : Memory.wf s.mem
  flagsApart : ¬ (s.flags.zero = true ∧ s.flags.negative = true)

/-- Zero and negative describe the byte `a` holds (spec/10_state.md R28). -/
def State.flagsDescribeA (s : State) : Prop :=
  s.flags.zero = decide (s.a = 0#8) ∧ s.flags.negative = s.a.getLsbD 7

/-- A value the cycle counter of `cycWidth` bits holds (spec/00_scope.md R6; the open parameter `CYC_WIDTH`). -/
def fitsCounter (cycWidth n : Nat) : Prop := n ≤ 2 ^ cycWidth - 1

/-- The run of `execute(budget)` from `s` ends normally (spec/40_fetch_execute.md R112 (a)). -/
def endsNormally (budget : Nat) (s : State) : Prop := ∃ t, executeRun budget s = .next t

/-- The LDA forms (spec/41_load.md R134: the only instructions that write `a` or any flag). -/
def isLoad : Instr → Bool
  | .ldaImm _ | .ldaZp _ | .ldaZpx _ => true
  | .jsr _ | .unhandled _ => false

/-- JSR, the only instruction that writes memory or `sp` (spec/10_state.md R24, spec/20_memory.md R58). -/
def isCall : Instr → Bool
  | .jsr _ => true
  | .ldaImm _ | .ldaZp _ | .ldaZpx _ | .unhandled _ => false

end Sys2Proof.Machine
end

