-- ==== Sys2Proof/Certificates/Slice0/Obligations.lean ====
section
/-! DEFINITION. The statements about the machine, one `def Obligations.<Name> : Prop` each. Where a clause rests on a
choice the spec marks as its own (a decision D<n> of spec/92_eei_decisions.md) or on the model's own (a log entry), the
docstring says so. -/

open Sys2Proof Sys2Proof.Machine

/-! ## Reset and the host's moves -/

/-- R191: `reset` gives every register, flag and cell its value, whatever the state and the memory were, and does not
touch `cyc`. -/
def Obligations.ResetCommandEstablishesState : Prop :=
  ∀ s : State, s.status ≠ .running →
    ∃ t : State, command .reset s = .next t ∧
      t.pc = 0xFFFC#16 ∧ t.sp = 0xFF#8 ∧ t.a = 0x00#8 ∧ t.x = 0x00#8 ∧ t.y = 0x00#8 ∧
      t.flags.carry = false ∧ t.flags.zero = false ∧ t.flags.interruptDisable = false ∧ t.flags.decimal = false ∧
      t.flags.brk = false ∧ t.flags.overflow = false ∧ t.flags.negative = false ∧
      (∀ addr : Word, memRead t.mem addr = 0x00#8) ∧ t.status = .idle ∧ t.cyc = s.cyc ∧
      t = { State.reset with cyc := s.cyc }

/-- The state after reset (10_state.md section 6) meets the invariant, and it lists no memory. Both clauses about the
memory speak of the model's own form of the data (log entry 12, DESIGN CHOICE). -/
def Obligations.ResetStateMeetsInvariant : Prop := State.reset.Inv ∧ State.reset.mem = []

/-- 70_reset_and_hazards.md section 1 and 10_state.md section 6 (R190, R34), with the spec's decision D11: a constructed
core has zeroed memory and refuses `execute` until a `reset`, which gives the reset state whatever the undefined
registers held (free values, log entry 7). -/
def Obligations.ConstructedCoreNeedsReset : Prop :=
  State.constructed.status = .unreset ∧ (∀ addr : Word, memRead State.constructed.mem addr = 0x00#8) ∧
  (∀ budget, command (.execute budget) State.constructed = .refused .executeUnreset) ∧
  command .reset State.constructed = .next { State.reset with cyc := State.constructed.cyc }

/-- 70_reset_and_hazards.md section 3, with the spec's decision D11: `execute` is accepted in IDLE, where it loads the
budget, and refused in the three other statuses. -/
def Obligations.ExecuteAcceptedOnlyInIdle : Prop :=
  ∀ (budget : Nat) (s : State),
    (s.status = .idle → command (.execute budget) s = .next { s with cyc := budget, status := .running }) ∧
    (s.status = .unreset → command (.execute budget) s = .refused .executeUnreset) ∧
    (s.status = .halted → command (.execute budget) s = .refused .executeHalted) ∧
    (s.status = .running → command (.execute budget) s = .refused .hostWhileRunning)

/-- 00_scope.md section 6 and 20_memory.md section 7: the host has no move while a run is under way. -/
def Obligations.HostHasNoMoveDuringRun : Prop :=
  ∀ s : State, s.status = .running →
    (∀ c : Command, command c s = .refused .hostWhileRunning) ∧
    (∀ q : Query, query q s = .refused .hostWhileRunning)

/-- 70_reset_and_hazards.md section 3, with the spec's decision D9: in IDLE and HALTED a register or flag write sets
that one item and nothing else (writing `a` leaves the flags); before the first reset it is refused. -/
def Obligations.HostRegisterWriteSetsOneItem : Prop :=
  ∀ s : State,
    (s.status = .idle ∨ s.status = .halted →
      (∀ v, command (.writePc v) s = .next { s with pc := v }) ∧
      (∀ v, command (.writeSp v) s = .next { s with sp := v }) ∧
      (∀ v, command (.writeA v) s = .next { s with a := v }) ∧
      (∀ v, command (.writeX v) s = .next { s with x := v }) ∧
      (∀ v, command (.writeY v) s = .next { s with y := v }) ∧
      (∀ b, command (.writeFlag .carry b) s = .next { s with flags := { s.flags with carry := b } }) ∧
      (∀ b, command (.writeFlag .zero b) s = .next { s with flags := { s.flags with zero := b } }) ∧
      (∀ b, command (.writeFlag .interruptDisable b) s =
        .next { s with flags := { s.flags with interruptDisable := b } }) ∧
      (∀ b, command (.writeFlag .decimal b) s = .next { s with flags := { s.flags with decimal := b } }) ∧
      (∀ b, command (.writeFlag .brk b) s = .next { s with flags := { s.flags with brk := b } }) ∧
      (∀ b, command (.writeFlag .overflow b) s = .next { s with flags := { s.flags with overflow := b } }) ∧
      (∀ b, command (.writeFlag .negative b) s = .next { s with flags := { s.flags with negative := b } })) ∧
    (s.status = .unreset → ∀ v b f,
      command (.writePc v) s = .refused .writeUnreset ∧ command (.writeSp b) s = .refused .writeUnreset ∧
      command (.writeA b) s = .refused .writeUnreset ∧ command (.writeX b) s = .refused .writeUnreset ∧
      command (.writeY b) s = .refused .writeUnreset ∧
      ∀ bit, command (.writeFlag f bit) s = .refused .writeUnreset)

/-- 70_reset_and_hazards.md section 3, with the spec's decision D10: a cell write of the host, in every status but
RUNNING, changes that cell and nothing else. -/
def Obligations.HostCellWriteSetsOneCell : Prop :=
  ∀ (s : State) (addr : Word) (v : Byte), s.status ≠ .running → Memory.wf s.mem →
    ∃ t : State, command (.writeCell addr v) s = .next t ∧ t = { s with mem := t.mem } ∧
      memRead t.mem addr = v ∧ ∀ b : Word, b ≠ addr → memRead t.mem b = memRead s.mem b

/-- 70_reset_and_hazards.md section 3, with the spec's decision D9: what the host reads is what the state holds. -/
def Obligations.HostReadsFindTheState : Prop :=
  ∀ s : State,
    (s.status ≠ .running → ∀ addr, query (.cell addr) s = .next (.byte (memRead s.mem addr))) ∧
    (s.status = .idle ∨ s.status = .halted →
      query .pc s = .next (.word s.pc) ∧ query .sp s = .next (.byte s.sp) ∧ query .a s = .next (.byte s.a) ∧
      query .x s = .next (.byte s.x) ∧ query .y s = .next (.byte s.y) ∧
      query (.flag .carry) s = .next (.bit s.flags.carry) ∧ query (.flag .zero) s = .next (.bit s.flags.zero) ∧
      query (.flag .interruptDisable) s = .next (.bit s.flags.interruptDisable) ∧
      query (.flag .decimal) s = .next (.bit s.flags.decimal) ∧ query (.flag .brk) s = .next (.bit s.flags.brk) ∧
      query (.flag .overflow) s = .next (.bit s.flags.overflow) ∧
      query (.flag .negative) s = .next (.bit s.flags.negative) ∧
      query .cyc s = .next (.count s.cyc) ∧ query .status s = .next (.status s.status))

/-! ## Whole runs -/

/-- 40_fetch_execute.md section 5 (R114): `execute(0)` performs no iteration. -/
def Obligations.ExecuteZeroPerformsNoIteration : Prop :=
  ∀ s : State, s.status = .idle → executeRun 0 s = .next { s with cyc := 0 }

/-- 40_fetch_execute.md section 5 (R112), with the spec's decision D6: a run ends in exactly one of two ways, normally in
IDLE with no cycle left, or in the fault with the core HALTED and fewer cycles left than were needed. -/
def Obligations.RunEndsIdleOrHalted : Prop :=
  ∀ (budget : Nat) (s : State), s.status = .idle →
    (∃ t, executeRun budget s = .next t ∧ t.status = .idle ∧ t.cyc = 0) ∨
    (∃ needed left frozen, executeRun budget s = .fault (.budgetUnderflow needed left frozen) ∧
      frozen.status = .halted ∧ frozen.cyc = left ∧ left < needed)

/-- 40_fetch_execute.md section 5 (R118), with the spec's decision D12: two runs that end normally leave what one run of
the summed budget leaves. -/
def Obligations.SuccessiveRunsCompose : Prop :=
  ∀ (b1 b2 : Nat) (s t u : State), executeRun b1 s = .next t → executeRun b2 t = .next u →
    executeRun (b1 + b2) s = .next u

/-- 40_fetch_execute.md section 5 (R115), with the spec's decision D6: a run ends normally exactly when its budget is the
cost of the first `k` instructions the core meets, for some `k`; LDA zero page's 3 in the cost table is the spec's
derivation (conflict C7, log entry 19). -/
def Obligations.RunEndsNormallyOnInstructionBoundary : Prop :=
  ∀ (budget : Nat) (s : State), s.status = .idle → (endsNormally budget s ↔ ∃ k, costOfFirst k s = budget)

/-- 40_fetch_execute.md section 5 (R115) and 43_unhandled.md section 1: where every cell holds an unhandled opcode, a run
ends normally for every budget, `pc` moved by the budget modulo 65536 (decision D3) and nothing else changed. -/
def Obligations.UnhandledOnlyRunEndsForEveryBudget : Prop :=
  ∀ (budget : Nat) (s : State), s.status = .idle → (∀ addr, isHandled (memRead s.mem addr) = false) →
    executeRun budget s = .next { s with pc := s.pc + BitVec.ofNat 16 budget, cyc := 0 }

/-- The model's own (log entries 4 and 11): whatever the host does, it finds the core stopped after each move, with the
memory in its canonical form. -/
def Obligations.SessionLeavesCoreStopped : Prop :=
  ∀ (cs : List Command) (s : State), s.status ≠ .running → Memory.wf s.mem →
    (session cs s).status ≠ .running ∧ Memory.wf (session cs s).mem

/-! ## The primitives -/

/-- 40_fetch_execute.md section 1 (R100), with the spec's decision D6. -/
def Obligations.SpendChecksBeforeItDeducts : Prop :=
  ∀ (n : Nat) (s : State),
    (n ≤ s.cyc → spend n s = .next { s with cyc := s.cyc - n }) ∧
    (s.cyc < n → spend n s = .fault (.budgetUnderflow n s.cyc { s with status := .halted }))

/-- 40_fetch_execute.md section 2 (R101), with the spec's decisions D3, D6 and D13: all four combinations of `advance` and
an explicit address, paid and unpaid. -/
def Obligations.FetchByteInEveryCombination : Prop :=
  ∀ (s : State) (ea : Word),
    (1 ≤ s.cyc →
      fetchByte true none s = .next (memRead s.mem s.pc, { s with pc := s.pc + 1#16, cyc := s.cyc - 1 }) ∧
      fetchByte false none s = .next (memRead s.mem s.pc, { s with cyc := s.cyc - 1 }) ∧
      fetchByte true (some ea) s = .next (memRead s.mem ea, { s with pc := s.pc + 1#16, cyc := s.cyc - 1 }) ∧
      fetchByte false (some ea) s = .next (memRead s.mem ea, { s with cyc := s.cyc - 1 })) ∧
    (s.cyc = 0 → ∀ (advance : Bool) (addr? : Option Word),
      fetchByte advance addr? s = .fault (.budgetUnderflow 1 0 { s with status := .halted }))

/-- 40_fetch_execute.md section 3 (R103), with the spec's decisions D6 and D13: a word is written whole or not at all. -/
def Obligations.WriteWordWholeOrNotAtAll : Prop :=
  ∀ (s : State) (addr v : Word),
    (2 ≤ s.cyc →
      writeWord addr v s = .next { s with mem := memWriteWord s.mem addr v, cyc := s.cyc - 2 }) ∧
    (s.cyc < 2 →
      writeWord addr v s = .fault (.budgetUnderflow 2 s.cyc { s with status := .halted }))

/-- 20_memory.md section 1 (R53): a byte write is read back and changes no other cell. -/
def Obligations.ByteWriteChangesOneCell : Prop :=
  ∀ (m : Memory) (addr : Word) (v : Byte), Memory.wf m →
    memRead (memWrite m addr v) addr = v ∧
    (∀ b : Word, b ≠ addr → memRead (memWrite m addr v) b = memRead m b) ∧ Memory.wf (memWrite m addr v)

/-- R56: little-endian where a word is stored and where one is read from the instruction stream. -/
def Obligations.WordsAreLittleEndian : Prop :=
  (∀ (m : Memory) (addr v : Word), Memory.wf m →
    memRead (memWriteWord m addr v) addr = v.extractLsb' 0 8 ∧
    memRead (memWriteWord m addr v) (addr + 1#16) = v.extractLsb' 8 8) ∧
  (∀ (m : Memory) (addr : Word), Memory.wf m →
    memRead (memWriteWord m addr 0xFFFE#16) addr = 0xFE#8 ∧
    memRead (memWriteWord m addr 0xFFFE#16) (addr + 1#16) = 0xFF#8) ∧
  (∀ s : State, 2 ≤ s.cyc →
    ∃ t, fetchWord s = .next (memRead s.mem (s.pc + 1#16) ++ memRead s.mem s.pc, t)) ∧
  (∀ (lo hi : Byte) (rest : List Byte),
    decode (0x20#8 :: lo :: hi :: rest) = .ok (.jsr (hi ++ lo), rest))

/-- The model's own (log entry 12): in the canonical form, memories that read alike are the same data. -/
def Obligations.CanonicalMemoriesReadingAlikeAreEqual : Prop :=
  ∀ m n : Memory, Memory.wf m → Memory.wf n → (∀ addr : Word, memRead m addr = memRead n addr) → m = n

/-! ## Decoding and encoding -/

/-- 30_encoding.md sections 2, 3 and 5: words written out from the encodings. -/
def Obligations.SampleWordsDecode : Prop :=
  decode [0xA9#8, 0x84#8] = .ok (.ldaImm 0x84#8, []) ∧
  decode [0xA5#8, 0x10#8] = .ok (.ldaZp 0x10#8, []) ∧
  decode [0xB5#8, 0xFF#8] = .ok (.ldaZpx 0xFF#8, []) ∧
  decode [0x20#8, 0x34#8, 0x12#8] = .ok (.jsr 0x1234#16, []) ∧
  decode [0xEA#8, 0xA9#8, 0x01#8] = .ok (.unhandled 0xEA#8, [0xA9#8, 0x01#8])

/-- 30_encoding.md sections 1 to 3: no bit of an encoding is dropped, whatever bytes follow. -/
def Obligations.DecodeOfEncodeIsTheInstruction : Prop :=
  ∀ (i : Instr) (rest : List Byte), WellFormed i → decode (encode i ++ rest) = .ok (i, rest)

/-- 30_encoding.md sections 1 to 3: each byte sequence that decodes is the encoding of what it decodes to, and that is
well-formed: no two encodings overlap. -/
def Obligations.EncodeOfDecodeIsTheBytes : Prop :=
  ∀ (bs rest : List Byte) (i : Instr), decode bs = .ok (i, rest) → WellFormed i ∧ encode i ++ rest = bs

/-- 30_encoding.md section 4 (R87): every opcode byte decodes; the only bytes refused are too few bytes. -/
def Obligations.DecoderRefusesOnlyMissingBytes : Prop :=
  (∀ e : DecodeError, decode [] = .error e ↔ e = .noOpcode) ∧
  (∀ (op : Byte) (rest : List Byte),
    (instrLength op ≤ rest.length + 1 → ∃ i tail, decode (op :: rest) = .ok (i, tail)) ∧
    (rest.length + 1 < instrLength op → decode (op :: rest) = .error (.missingOperand op)))

/-- 30_encoding.md section 1 (R83): the length is 3 for `0x20`, 2 for the LDA opcodes, else 1, in what the encoder writes
and in what the decoder takes. -/
def Obligations.InstructionLengthByOpcode : Prop :=
  ∀ (i : Instr) (rest bs : List Byte), decode bs = .ok (i, rest) →
    (encode i).length + rest.length = bs.length ∧
    (encode i).length =
      (if opcodeOf i = 0x20#8 then 3
       else if opcodeOf i = 0xA5#8 ∨ opcodeOf i = 0xA9#8 ∨ opcodeOf i = 0xB5#8 then 2 else 1)

/-- R111: the whole opcode byte at `pc` is compared with the four table values, and the matching instruction is
performed; every other value takes the unhandled path. -/
def Obligations.DispatchByWholeOpcodeByte : Prop :=
  ∀ s : State, s.status = .running → s.cyc ≠ 0 →
    let op := memRead s.mem s.pc
    let b1 := memRead s.mem (s.pc + 1#16)
    let b2 := memRead s.mem (s.pc + 2#16)
    (op = 0xA9#8 → step s = exec (.ldaImm b1) s) ∧
    (op = 0xA5#8 → step s = exec (.ldaZp b1) s) ∧
    (op = 0xB5#8 → step s = exec (.ldaZpx b1) s) ∧
    (op = 0x20#8 → step s = exec (.jsr (b2 ++ b1)) s) ∧
    (op ≠ 0xA9#8 → op ≠ 0xA5#8 → op ≠ 0xB5#8 → op ≠ 0x20#8 → step s = exec (.unhandled op) s)

/-! ## The step -/

/-- 40_fetch_execute.md section 5 (R117): one step of a running core with budget left performs the instruction the
bytes at `pc` decode to; nothing stands around it (the instruction's meaning makes its own opcode fetch). -/
def Obligations.StepRunsDecodedInstruction : Prop :=
  ∀ (s : State) (i : Instr) (rest : List Byte), s.status = .running → s.cyc ≠ 0 →
    decode [memRead s.mem s.pc, memRead s.mem (s.pc + 1#16), memRead s.mem (s.pc + 2#16)] = .ok (i, rest) →
    step s = exec i s

/-- 40_fetch_execute.md section 5, 30_encoding.md section 1: wherever the encoding of a well-formed instruction stands at
`pc` (addresses modulo 65536), a step performs that instruction. -/
def Obligations.StepRunsEncodedInstruction : Prop :=
  ∀ (s : State) (i : Instr), s.status = .running → s.cyc ≠ 0 → WellFormed i →
    (∀ k b, (encode i)[k]? = some b → memRead s.mem (s.pc + BitVec.ofNat 16 k) = b) →
    step s = exec i s

/-- 40_fetch_execute.md section 5 (R112 (a), R117): with no cycle left the only step is the normal end of the run. -/
def Obligations.StepEndsRunAtZeroBudget : Prop :=
  ∀ s : State, s.status = .running → s.cyc = 0 → step s = .next { s with status := .idle }

/-- 10_state.md section 5 (R32) and 60_exceptions.md sections 1 and 7 (R162, R173; the model's reading, log entry 2):
a core that is not running does nothing; a HALTED core stays HALTED under every accepted command but `reset`. -/
def Obligations.StoppedCoreDoesNothing : Prop :=
  ∀ s : State,
    (s.status ≠ .running → step s = .next s) ∧
    (s.status = .halted →
      (∀ (c : Command) (t : State), c ≠ .reset → command c s = .next t → t.status = .halted) ∧
      ∃ t : State, command .reset s = .next t ∧ t.status = .idle)

/-! ## The instructions: results -/

/-- 41_load.md section 2 (R131; the wrap of `pc` is the spec's decision D3): LDA immediate completes with two cycles. -/
def Obligations.LdaImmediateLoadsItsOperand : Prop :=
  ∀ (imm8 : Byte) (s : State), 2 ≤ s.cyc →
    exec (.ldaImm imm8) s = .next
      { s with
        a := imm8
        flags := { s.flags with zero := decide (imm8 = 0x00#8), negative := imm8.getLsbD 7 }
        pc := s.pc + 2#16
        cyc := s.cyc - 2 }

/-- 41_load.md section 3 (R132; the total of 3 is the spec's derivation, conflict C7): LDA zero page completes with
three cycles and loads the cell of the zero-extended address. -/
def Obligations.LdaZeroPageLoadsTheCell : Prop :=
  ∀ (zp8 : Byte) (s : State), 3 ≤ s.cyc →
    exec (.ldaZp zp8) s = .next
      { s with
        a := memRead s.mem (zp8.zeroExtend 16)
        flags :=
          { s.flags with
            zero := decide (memRead s.mem (zp8.zeroExtend 16) = 0x00#8)
            negative := (memRead s.mem (zp8.zeroExtend 16)).getLsbD 7 }
        pc := s.pc + 2#16
        cyc := s.cyc - 3 }

/-- 41_load.md section 4 (R133, R108; the wrap of `pc` is the spec's decision D3): LDA zero page,X completes with four
cycles and loads the cell of `(base8 + x) mod 256`, a sum that never leaves the zero page. -/
def Obligations.LdaZeroPageXLoadsTheWrappedCell : Prop :=
  ∀ (base8 : Byte) (s : State), 4 ≤ s.cyc →
    let ea := BitVec.ofNat 16 ((base8.toNat + s.x.toNat) % 256)
    exec (.ldaZpx base8) s = .next
      { s with
        a := memRead s.mem ea
        flags :=
          { s.flags with
            zero := decide (memRead s.mem ea = 0x00#8)
            negative := (memRead s.mem ea).getLsbD 7 }
        pc := s.pc + 2#16
        cyc := s.cyc - 4 }

/-- 42_subroutine.md section 1 (R140), with the spec's decisions D2 (`STACK_BASE` = 0), D3 and D5 (wraps): JSR completes
with six cycles; it lowers `sp` by 1, stores the address of its last byte at the new `sp`, low byte first, and goes to
the target. -/
def Obligations.JsrPushesAndJumps : Prop :=
  ∀ (target : Word) (s : State), 6 ≤ s.cyc →
    let slot : Word := (s.sp - 1#8).zeroExtend 16
    let ret := s.pc + 2#16
    exec (.jsr target) s = .next
      { s with
        sp := s.sp - 1#8
        mem := memWriteWord s.mem slot ret
        pc := target
        cyc := s.cyc - 6 } ∧
    (Memory.wf s.mem →
      memRead (memWriteWord s.mem slot ret) slot = ret.extractLsb' 0 8 ∧
      memRead (memWriteWord s.mem slot ret) (slot + 1#16) = ret.extractLsb' 8 8)

/-- 43_unhandled.md section 1 (R150; the wrap of `pc` is the spec's decision D3, going on after it D8): an unhandled
opcode, any of the 252 values, is a one-byte, one-cycle instruction that changes nothing but `pc` and `cyc`; it cannot
fault in a run. That the model always gives its report is the model's choice (log entry 9; the spec says only that one
may be emitted), and the report's content is the spec's decision D15. -/
def Obligations.UnhandledAdvancesOneByteOneCycle : Prop :=
  ∀ (op : Byte) (s : State), op ≠ 0xA9#8 → op ≠ 0xA5#8 → op ≠ 0xB5#8 → op ≠ 0x20#8 → 1 ≤ s.cyc →
    exec (.unhandled op) s = .next { s with pc := s.pc + 1#16, cyc := s.cyc - 1 } ∧
    (s.status = .running → memRead s.mem s.pc = op →
      step s = .next { s with pc := s.pc + 1#16, cyc := s.cyc - 1 } ∧
      reportAt s = some { op := op, addr := s.pc })

/-! ## The instructions: where the budget cuts them -/

/-- 41_load.md section 2 (R131), with the spec's decisions D6 and D13. -/
def Obligations.LdaImmediateCutByBudget : Prop :=
  ∀ (imm8 : Byte) (s : State), s.cyc = 1 →
    exec (.ldaImm imm8) s =
      .fault (.budgetUnderflow 1 0 { s with pc := s.pc + 1#16, cyc := 0, status := .halted })

/-- 41_load.md section 3 (R132), with the spec's decisions D6 and D13; that a third cycle is needed is the spec's
derivation (conflict C7, log entry 19). -/
def Obligations.LdaZeroPageCutByBudget : Prop :=
  ∀ (zp8 : Byte) (s : State),
    (s.cyc = 1 → exec (.ldaZp zp8) s =
      .fault (.budgetUnderflow 1 0 { s with pc := s.pc + 1#16, cyc := 0, status := .halted })) ∧
    (s.cyc = 2 → exec (.ldaZp zp8) s =
      .fault (.budgetUnderflow 1 0 { s with pc := s.pc + 2#16, cyc := 0, status := .halted }))

/-- 41_load.md section 4 (R133), with the spec's decisions D6 and D13. -/
def Obligations.LdaZeroPageXCutByBudget : Prop :=
  ∀ (base8 : Byte) (s : State),
    (s.cyc = 1 → exec (.ldaZpx base8) s =
      .fault (.budgetUnderflow 1 0 { s with pc := s.pc + 1#16, cyc := 0, status := .halted })) ∧
    (s.cyc = 2 ∨ s.cyc = 3 → exec (.ldaZpx base8) s =
      .fault (.budgetUnderflow 1 0 { s with pc := s.pc + 2#16, cyc := 0, status := .halted }))

/-- 42_subroutine.md section 1 (R140), with the spec's decisions D2, D6 and D13: the state a JSR leaves at each of its
cycles. -/
def Obligations.JsrCutByBudget : Prop :=
  ∀ (target : Word) (s : State),
    (s.cyc = 1 → exec (.jsr target) s =
      .fault (.budgetUnderflow 1 0 { s with pc := s.pc + 1#16, cyc := 0, status := .halted })) ∧
    (s.cyc = 2 → exec (.jsr target) s =
      .fault (.budgetUnderflow 1 0 { s with pc := s.pc + 2#16, cyc := 0, status := .halted })) ∧
    (s.cyc = 3 → exec (.jsr target) s =
      .fault (.budgetUnderflow 2 0
        { s with pc := s.pc + 3#16, sp := s.sp - 1#8, cyc := 0, status := .halted })) ∧
    (s.cyc = 4 → exec (.jsr target) s =
      .fault (.budgetUnderflow 2 1
        { s with pc := s.pc + 3#16, sp := s.sp - 1#8, cyc := 1, status := .halted })) ∧
    (s.cyc = 5 → exec (.jsr target) s =
      .fault (.budgetUnderflow 1 0
        { s with
          pc := s.pc + 3#16
          sp := s.sp - 1#8
          mem := memWriteWord s.mem ((s.sp - 1#8).zeroExtend 16) (s.pc + 2#16)
          cyc := 0
          status := .halted }))

/-! ## Flags and frames -/

/-- R130: `SetZN` writes two flags and nothing else, and every LDA form applies it to the byte just loaded. -/
def Obligations.LoadsSetZeroAndNegative : Prop :=
  (∀ (v : Byte) (s : State),
    setZN v s = { s with flags := { s.flags with zero := decide (v = 0x00#8), negative := v.getLsbD 7 } }) ∧
  ∀ (i : Instr) (s t : State), isLoad i = true → exec i s = .next t →
    t.flags = { s.flags with zero := decide (t.a = 0x00#8), negative := t.a.getLsbD 7 } ∧
    (t.a = 0x00#8 → t.flags.zero = true ∧ t.flags.negative = false) ∧
    (0x01#8 ≤ t.a → t.a ≤ 0x7F#8 → t.flags.zero = false ∧ t.flags.negative = false) ∧
    (0x80#8 ≤ t.a → t.flags.zero = false ∧ t.flags.negative = true) ∧
    ¬ (t.flags.zero = true ∧ t.flags.negative = true)

/-- 41_load.md sections 1 to 4: what the three LDA forms leave unchanged. -/
def Obligations.LoadFrame : Prop :=
  ∀ (i : Instr) (s t : State), isLoad i = true → exec i s = .next t →
    t.sp = s.sp ∧ t.x = s.x ∧ t.y = s.y ∧ t.status = s.status ∧
    t.flags.carry = s.flags.carry ∧ t.flags.interruptDisable = s.flags.interruptDisable ∧
    t.flags.decimal = s.flags.decimal ∧ t.flags.brk = s.flags.brk ∧ t.flags.overflow = s.flags.overflow ∧
    ∀ b : Word, memRead t.mem b = memRead s.mem b

/-- 42_subroutine.md section 1: what JSR leaves unchanged; the stored word lies at the push address of the decremented
`sp` and the next address. -/
def Obligations.JsrFrame : Prop :=
  ∀ (target : Word) (s t : State), exec (.jsr target) s = .next t →
    t.a = s.a ∧ t.x = s.x ∧ t.y = s.y ∧ t.flags = s.flags ∧ t.status = s.status ∧
    ∀ addr : Word, pushAddress Config.stackBase (s.sp - 1#8) = addr →
      ∀ b : Word, b ≠ addr → b ≠ addr + 1#16 → memRead t.mem b = memRead s.mem b

/-- 43_unhandled.md section 1: what an unhandled opcode leaves unchanged. -/
def Obligations.UnhandledFrame : Prop :=
  ∀ (op : Byte) (s t : State), exec (.unhandled op) s = .next t →
    t.sp = s.sp ∧ t.a = s.a ∧ t.x = s.x ∧ t.y = s.y ∧ t.flags = s.flags ∧ t.status = s.status ∧
    ∀ b : Word, memRead t.mem b = memRead s.mem b

/-- R27: zero and negative are written by every LDA form and by nothing else, the five other flags by no instruction,
and no instruction reads any flag: whatever the flags hold, the instruction does the same. -/
def Obligations.FlagsWrittenByLoadsReadByNothing : Prop :=
  State.reset.flags =
    { carry := false, zero := false, interruptDisable := false, decimal := false, brk := false, overflow := false,
      negative := false } ∧
  ∀ (i : Instr) (s : State),
    (∀ t, exec i s = .next t →
      t.flags.carry = s.flags.carry ∧ t.flags.interruptDisable = s.flags.interruptDisable ∧
      t.flags.decimal = s.flags.decimal ∧ t.flags.brk = s.flags.brk ∧ t.flags.overflow = s.flags.overflow ∧
      (isLoad i = true → t.flags.zero = decide (t.a = 0x00#8) ∧ t.flags.negative = t.a.getLsbD 7) ∧
      (isLoad i = false → t.flags.zero = s.flags.zero ∧ t.flags.negative = s.flags.negative) ∧
      ∀ f : Flags, exec i { s with flags := f } = .next
        { t with flags := if isLoad i then { f with zero := t.flags.zero, negative := t.flags.negative } else f }) ∧
    (∀ needed left frozen, exec i s = .fault (.budgetUnderflow needed left frozen) →
      ∀ f : Flags, exec i { s with flags := f } =
        .fault (.budgetUnderflow needed left { frozen with flags := f }))

/-- R23: `a` is written only by the LDA forms and read by no instruction; `x` is read only by LDA zero page,X, as the
index, and written by none; `y` is neither read nor written; all three are zero after reset. -/
def Obligations.DataRegistersHaveTheirOnlyUses : Prop :=
  State.reset.a = 0x00#8 ∧ State.reset.x = 0x00#8 ∧ State.reset.y = 0x00#8 ∧
  ∀ (i : Instr) (s t : State), exec i s = .next t →
    t.x = s.x ∧ t.y = s.y ∧ (isLoad i = false → t.a = s.a) ∧
    (∀ v : Byte, exec i { s with y := v } = .next { t with y := v }) ∧
    (∀ v : Byte, exec i { s with a := v } = .next (if isLoad i then t else { t with a := v })) ∧
    (∀ v : Byte, (∀ base8, i ≠ .ldaZpx base8) → exec i { s with x := v } = .next { t with x := v }) ∧
    (∀ base8, i = .ldaZpx base8 → t.a = memRead s.mem ((base8 + s.x).zeroExtend 16))

/-- 10_state.md section 3 (R24; the wrap at `0x00` is the spec's decision D5): JSR lowers `sp` by 1 modulo 256 and no
other instruction writes it. -/
def Obligations.StackPointerMovedOnlyByJsr : Prop :=
  ∀ (i : Instr) (s t : State), exec i s = .next t →
    (isCall i = true → t.sp.toNat = (s.sp.toNat + 255) % 256) ∧ (isCall i = false → t.sp = s.sp)

/-! ## Rules of the whole machine -/

/-- 42_subroutine.md section 2 (R141), with the spec's decisions D2 and D5: of two calls in a row the second overwrites
the low byte of the first return address with its own high byte; where the second one wraps `sp` (it was 1 before the
first), the words lie apart and the first stays whole. -/
def Obligations.ConsecutiveCallsOverlapByOneByte : Prop :=
  ∀ (t1 t2 : Word) (s : State), 12 ≤ s.cyc → Memory.wf s.mem →
    ∃ t u : State, exec (.jsr t1) s = .next t ∧ exec (.jsr t2) t = .next u ∧ u.pc = t2 ∧ u.sp = s.sp - 2#8 ∧
      memRead u.mem ((s.sp - 2#8).zeroExtend 16) = (t1 + 2#16).extractLsb' 0 8 ∧
      memRead u.mem ((s.sp - 2#8).zeroExtend 16 + 1#16) = (t1 + 2#16).extractLsb' 8 8 ∧
      memRead u.mem ((s.sp - 1#8).zeroExtend 16 + 1#16) = (s.pc + 2#16).extractLsb' 8 8 ∧
      (s.sp ≠ 0x01#8 →
        memRead u.mem ((s.sp - 1#8).zeroExtend 16) = (t1 + 2#16).extractLsb' 8 8) ∧
      (s.sp = 0x01#8 →
        memRead u.mem ((s.sp - 1#8).zeroExtend 16) = (s.pc + 2#16).extractLsb' 0 8)

/-- 20_memory.md section 7 (R68), with the spec's decision D2: a JSR into the two cells it has just written runs the
bytes it wrote there. -/
def Obligations.PushedBytesAreTheNextInstruction : Prop :=
  ∀ s : State, s.status = .running → 6 < s.cyc → Memory.wf s.mem →
    let slot : Word := (s.sp - 1#8).zeroExtend 16
    let ret := s.pc + 2#16
    ∃ t : State, exec (.jsr slot) s = .next t ∧ t.pc = slot ∧
      step t = exec (decodeBytes (ret.extractLsb' 0 8) (ret.extractLsb' 8 8) (memRead s.mem (slot + 2#16))) t

/-- 20_memory.md sections 1 and 5 (R51, R61), with the spec's decision D2: no step, whether it completes or faults,
changes a cell above `0x0100`, and only JSR changes any. -/
def Obligations.StepsWriteOnlyStackCells : Prop :=
  ∀ (s t : State), (step s = .next t ∨ ∃ needed left, step s = .fault (.budgetUnderflow needed left t)) →
    (∀ b : Word, 0x0100 < b.toNat → memRead t.mem b = memRead s.mem b) ∧
    (isCall (fetchInstr s) = false → t.mem = s.mem)

/-- 70_reset_and_hazards.md section 5 (R210; LDA zero page's 3 is the spec's derivation): a completed iteration costs
what the table gives its opcode byte, whatever the operands, and the run goes on. -/
def Obligations.IterationCostsItsTableCycles : Prop :=
  ∀ s t : State, s.status = .running → s.cyc ≠ 0 → step s = .next t →
    let op := memRead s.mem s.pc
    t.cyc + (if op = 0xA9#8 then 2 else if op = 0xA5#8 then 3 else if op = 0xB5#8 then 4 else if op = 0x20#8 then 6
      else 1) = s.cyc ∧
    t.status = .running

/-- 60_exceptions.md section 1 (R161) and 40_fetch_execute.md section 5 (R115), with the spec's decision D6: an iteration
faults exactly when the budget is short of its cost, else it completes; no such step is refused. LDA zero page's 3 is
the spec's derivation (conflict C7, log entry 19). -/
def Obligations.IterationFaultsExactlyWhenBudgetIsShort : Prop :=
  ∀ s : State, s.status = .running → s.cyc ≠ 0 →
    let op := memRead s.mem s.pc
    let cost := if op = 0xA9#8 then 2 else if op = 0xA5#8 then 3 else if op = 0xB5#8 then 4 else if op = 0x20#8 then 6
      else 1
    (s.cyc < cost → ∃ needed left frozen, step s = .fault (.budgetUnderflow needed left frozen)) ∧
    (cost ≤ s.cyc → ∃ t, step s = .next t)

/-- 60_exceptions.md section 1 (R161, R162), with the spec's decisions D6, D13 and D16: a fault halts the core with `cyc`
as it was found, below what was needed, and with `a`, `x`, `y` and the flags untouched; only a JSR has moved `sp`; the
halted core then does nothing and refuses `execute`. -/
def Obligations.FaultFreezesTheCore : Prop :=
  ∀ (s frozen : State) (needed left : Nat), step s = .fault (.budgetUnderflow needed left frozen) →
    frozen.status = .halted ∧ frozen.cyc = left ∧ left < needed ∧ (needed = 1 ∨ needed = 2) ∧
    frozen.a = s.a ∧ frozen.x = s.x ∧ frozen.y = s.y ∧ frozen.flags = s.flags ∧
    (frozen.sp = s.sp ∨ (isCall (fetchInstr s) = true ∧ frozen.sp = s.sp - 1#8)) ∧
    step frozen = .next frozen ∧ ∀ budget, command (.execute budget) frozen = .refused .executeHalted

/-- 10_state.md section 5 (R31) and 00_scope.md section 3 (R6, the open width `CYC_WIDTH`), with the spec's decision D6:
a step never raises `cyc`, so a budget that fits the counter keeps fitting it, whatever its width. -/
def Obligations.StepsNeverRaiseTheBudget : Prop :=
  ∀ (s t : State), (step s = .next t ∨ ∃ needed left, step s = .fault (.budgetUnderflow needed left t)) →
    t.cyc ≤ s.cyc ∧ ∀ cycWidth : Nat, fitsCounter cycWidth s.cyc → fitsCounter cycWidth t.cyc

/-- The invariant every step keeps: the memory's canonical form (log entry 12), and that zero and negative are not both
1 (41_load.md section 1). -/
def Obligations.StepKeepsInvariant : Prop := ∀ s t : State, s.Inv → step s = .next t → t.Inv

/-- R28: from the completion of an LDA on, zero says whether `a` is 0 and negative is bit 7 of `a`: every step keeps it; the
reset state does not have it, and no instruction but a load brings it about. -/
def Obligations.FlagsDescribeTheLastLoad : Prop :=
  (∀ (i : Instr) (s t : State), isLoad i = true → exec i s = .next t → t.flagsDescribeA) ∧
  (∀ s t : State, s.flagsDescribeA → step s = .next t → t.flagsDescribeA) ∧
  (∀ (i : Instr) (s t : State), isLoad i = false → exec i s = .next t → (t.flagsDescribeA ↔ s.flagsDescribeA)) ∧
  ¬ State.reset.flagsDescribeA
end

