-- ==== Sys2Proof/Laws/Encoding.lean ====
section
/-! SUPPORT. Taking a word apart into bytes and putting it together are inverse, and what an unhandled opcode is not. -/

namespace Sys2Proof.Machine

/-- `hi * 256 + lo` (spec/30_encoding.md R84). -/
theorem joinWord_toNat (lo hi : Byte) : (joinWord lo hi).toNat = hi.toNat * 256 + lo.toNat := by
  have h : (joinWord lo hi).toNat = hi.toNat <<< 8 ||| lo.toNat := BitVec.toNat_append hi lo
  rw [h, ← Nat.shiftLeft_add_eq_or_of_lt (by omega), Nat.shiftLeft_eq]

theorem lowByte_toNat (v : Word) : (lowByte v).toNat = v.toNat % 256 := by
  simp [lowByte, BitVec.extractLsb'_toNat]

theorem highByte_toNat (v : Word) : (highByte v).toNat = v.toNat / 256 := by
  simp only [highByte, BitVec.extractLsb'_toNat, Nat.shiftRight_eq_div_pow]
  omega

@[simp] theorem lowByte_joinWord (lo hi : Byte) : lowByte (joinWord lo hi) = lo :=
  BitVec.eq_of_toNat_eq (by rw [lowByte_toNat, joinWord_toNat]; omega)

@[simp] theorem highByte_joinWord (lo hi : Byte) : highByte (joinWord lo hi) = hi :=
  BitVec.eq_of_toNat_eq (by rw [highByte_toNat, joinWord_toNat]; omega)

@[simp] theorem joinWord_low_high (v : Word) : joinWord (lowByte v) (highByte v) = v :=
  BitVec.eq_of_toNat_eq (by rw [joinWord_toNat, lowByte_toNat, highByte_toNat]; omega)

/-- An unhandled opcode differs from each of the four opcodes of the map (spec/30_encoding.md R86). -/
theorem isHandled_eq_false {op : Byte} :
    isHandled op = false ↔ op ≠ opLdaImm ∧ op ≠ opLdaZp ∧ op ≠ opLdaZpx ∧ op ≠ opJsr := by
  simp [isHandled, and_assoc]

end Sys2Proof.Machine
end

