-- ==== Sys2Proof/Laws/Memory.lean ====
section
/-! SUPPORT. Reads after writes, and that every memory operation keeps the canonical form. -/

namespace Sys2Proof.Machine

theorem memWf_iff {m : Memory} :
    Memory.wf m ↔
      m.Pairwise (fun c d => c.1 < d.1) ∧ ∀ c ∈ m, c.1 < Config.memSize ∧ c.2 ≠ Config.unlistedByte := by
  simp [Memory.wf]

theorem memWf_nil : Memory.wf [] := by decide

theorem memWf_tail {c : Host.Cell} {m : Memory} (h : Memory.wf (c :: m)) : Memory.wf m :=
  have h := memWf_iff.mp h
  memWf_iff.mpr ⟨h.1.of_cons, fun d hd => h.2 d (List.mem_cons_of_mem c hd)⟩

theorem memWf_head_lt {c d : Host.Cell} {m : Memory} (h : Memory.wf (c :: m)) (hd : d ∈ m) : c.1 < d.1 :=
  List.rel_of_pairwise_cons (memWf_iff.mp h).1 hd

/-- A cell below every listed address is unlisted. -/
theorem readCell_below {m : Memory} {n : Nat} (h : ∀ c ∈ m, n < c.1) : readCell m n = Config.unlistedByte := by
  induction m with
  | nil => rfl
  | cons c m ih =>
    have hc := h c (List.mem_cons_self ..)
    rw [readCell, if_neg (by omega)]
    exact ih fun d hd => h d (List.mem_cons_of_mem c hd)

/-- A write leaves every other cell alone, in every memory. -/
theorem readCell_writeCell_ne {m : Memory} {n k : Nat} {v : Byte} (h : k ≠ n) :
    readCell (writeCell m n v) k = readCell m k := by
  induction m with
  | nil =>
    by_cases hv : v = Config.unlistedByte <;> simp [writeCell, readCell, hv, Ne.symm h]
  | cons c m ih =>
    obtain ⟨a, w⟩ := c
    simp only [writeCell]
    split_ifs with h1 hv h2 hv
    · rfl
    · simp [readCell, Ne.symm h]
    · subst h2; simp [readCell, Ne.symm h]
    · subst h2; simp [readCell, Ne.symm h]
    · simp [readCell, ih]

/-- A write is read back, in a memory of canonical form. -/
theorem readCell_writeCell_self {m : Memory} {n : Nat} {v : Byte} (h : Memory.wf m) :
    readCell (writeCell m n v) n = v := by
  induction m with
  | nil => by_cases hv : v = Config.unlistedByte <;> simp [writeCell, readCell, hv]
  | cons c m ih =>
    have ht : ∀ d ∈ m, c.1 < d.1 := fun d hd => memWf_head_lt h hd
    obtain ⟨a, w⟩ := c
    simp only [writeCell]
    split_ifs with h1 hv h2 hv
    · rw [hv]
      refine readCell_below fun d hd => ?_
      rcases List.mem_cons.mp hd with rfl | hd
      · exact h1
      · have := ht d hd
        simp only at this
        omega
    · simp [readCell]
    · rw [hv]
      refine readCell_below fun d hd => ?_
      have := ht d hd
      simp only at this
      omega
    · simp [readCell]
    · rw [readCell, if_neg (by omega)]
      exact ih (memWf_tail h)

/-- What a write can list: the cell written, with a byte that is not the unlisted one, or what was listed. -/
theorem mem_writeCell {m : Memory} {n : Nat} {v : Byte} {c : Host.Cell} (h : c ∈ writeCell m n v) :
    c ∈ m ∨ (c = (n, v) ∧ v ≠ Config.unlistedByte) := by
  induction m with
  | nil =>
    by_cases hv : v = Config.unlistedByte <;> simp_all [writeCell]
  | cons d m ih =>
    obtain ⟨a, w⟩ := d
    simp only [writeCell] at h
    split_ifs at h with h1 hv h2 hv
    · exact .inl h
    · rcases List.mem_cons.mp h with rfl | h
      · exact .inr ⟨rfl, hv⟩
      · exact .inl h
    · exact .inl (List.mem_cons_of_mem _ h)
    · rcases List.mem_cons.mp h with rfl | h
      · exact .inr ⟨rfl, hv⟩
      · exact .inl (List.mem_cons_of_mem _ h)
    · rcases List.mem_cons.mp h with rfl | h
      · exact .inl (List.mem_cons_self ..)
      · exact (ih h).imp_left (List.mem_cons_of_mem _)

theorem writeCell_sorted {m : Memory} {n : Nat} {v : Byte} (h : m.Pairwise (fun c d => c.1 < d.1)) :
    (writeCell m n v).Pairwise (fun c d => c.1 < d.1) := by
  induction m with
  | nil => by_cases hv : v = Config.unlistedByte <;> simp [writeCell, hv]
  | cons c m ih =>
    have hrel : ∀ d ∈ m, c.1 < d.1 := fun d hd => List.rel_of_pairwise_cons h hd
    have htail := h.of_cons
    obtain ⟨a, w⟩ := c
    simp only [writeCell]
    split_ifs with h1 hv h2 hv
    · exact h
    · refine List.pairwise_cons.mpr ⟨fun d hd => ?_, h⟩
      rcases List.mem_cons.mp hd with rfl | hd
      · exact h1
      · exact h1.trans (hrel d hd)
    · exact htail
    · exact List.pairwise_cons.mpr ⟨fun d hd => h2 ▸ hrel d hd, htail⟩
    · refine List.pairwise_cons.mpr ⟨fun d hd => ?_, ih htail⟩
      rcases mem_writeCell hd with hd | ⟨rfl, -⟩
      · exact hrel d hd
      · simp only
        omega

theorem writeCell_wf {m : Memory} {n : Nat} {v : Byte} (h : Memory.wf m) (hn : n < Config.memSize) :
    Memory.wf (writeCell m n v) := by
  have h := memWf_iff.mp h
  refine memWf_iff.mpr ⟨writeCell_sorted h.1, fun c hc => ?_⟩
  rcases mem_writeCell hc with hc | ⟨rfl, hv⟩
  · exact h.2 c hc
  · exact ⟨hn, hv⟩

theorem memWrite_wf {m : Memory} (addr : Word) (v : Byte) (h : Memory.wf m) : Memory.wf (memWrite m addr v) :=
  writeCell_wf h addr.isLt

theorem memWriteWord_wf {m : Memory} (addr v : Word) (h : Memory.wf m) : Memory.wf (memWriteWord m addr v) :=
  memWrite_wf _ _ (memWrite_wf _ _ h)

theorem placeBytes_wf {m : Memory} (bs : List Byte) (addr : Word) (h : Memory.wf m) :
    Memory.wf (placeBytes bs addr m) := by
  induction bs generalizing addr m with
  | nil => exact h
  | cons b bs ih => exact ih _ (memWrite_wf _ _ h)

theorem memRead_memWrite_self {m : Memory} (addr : Word) (v : Byte) (h : Memory.wf m) :
    memRead (memWrite m addr v) addr = v :=
  readCell_writeCell_self h

theorem memRead_memWrite_ne {m : Memory} {addr b : Word} (v : Byte) (h : b ≠ addr) :
    memRead (memWrite m addr v) b = memRead m b :=
  readCell_writeCell_ne fun e => h (BitVec.eq_of_toNat_eq e)

/-- A word write changes its two cells and no other. -/
theorem memRead_memWriteWord_ne {m : Memory} {addr b : Word} (v : Word) (h0 : b ≠ addr) (h1 : b ≠ addr + 1#16) :
    memRead (memWriteWord m addr v) b = memRead m b := by
  rw [memWriteWord, memRead_memWrite_ne _ h1, memRead_memWrite_ne _ h0]

end Sys2Proof.Machine
end

