-- ==== Sys2Proof/Laws/State.lean ====
section
/-! SUPPORT. What each named update of State.lean, and `setZN`, leaves in each field: one lemma per field per update. -/

namespace Sys2Proof.Machine

@[simp] theorem setPc_pc (s : State) (v : Word) : (s.setPc v).pc = v := rfl
@[simp] theorem setPc_sp (s : State) (v : Word) : (s.setPc v).sp = s.sp := rfl
@[simp] theorem setPc_a (s : State) (v : Word) : (s.setPc v).a = s.a := rfl
@[simp] theorem setPc_x (s : State) (v : Word) : (s.setPc v).x = s.x := rfl
@[simp] theorem setPc_y (s : State) (v : Word) : (s.setPc v).y = s.y := rfl
@[simp] theorem setPc_flags (s : State) (v : Word) : (s.setPc v).flags = s.flags := rfl
@[simp] theorem setPc_cyc (s : State) (v : Word) : (s.setPc v).cyc = s.cyc := rfl
@[simp] theorem setPc_status (s : State) (v : Word) : (s.setPc v).status = s.status := rfl
@[simp] theorem setPc_mem (s : State) (v : Word) : (s.setPc v).mem = s.mem := rfl

@[simp] theorem setSp_pc (s : State) (v : Byte) : (s.setSp v).pc = s.pc := rfl
@[simp] theorem setSp_sp (s : State) (v : Byte) : (s.setSp v).sp = v := rfl
@[simp] theorem setSp_a (s : State) (v : Byte) : (s.setSp v).a = s.a := rfl
@[simp] theorem setSp_x (s : State) (v : Byte) : (s.setSp v).x = s.x := rfl
@[simp] theorem setSp_y (s : State) (v : Byte) : (s.setSp v).y = s.y := rfl
@[simp] theorem setSp_flags (s : State) (v : Byte) : (s.setSp v).flags = s.flags := rfl
@[simp] theorem setSp_cyc (s : State) (v : Byte) : (s.setSp v).cyc = s.cyc := rfl
@[simp] theorem setSp_status (s : State) (v : Byte) : (s.setSp v).status = s.status := rfl
@[simp] theorem setSp_mem (s : State) (v : Byte) : (s.setSp v).mem = s.mem := rfl

@[simp] theorem setA_pc (s : State) (v : Byte) : (s.setA v).pc = s.pc := rfl
@[simp] theorem setA_sp (s : State) (v : Byte) : (s.setA v).sp = s.sp := rfl
@[simp] theorem setA_a (s : State) (v : Byte) : (s.setA v).a = v := rfl
@[simp] theorem setA_x (s : State) (v : Byte) : (s.setA v).x = s.x := rfl
@[simp] theorem setA_y (s : State) (v : Byte) : (s.setA v).y = s.y := rfl
@[simp] theorem setA_flags (s : State) (v : Byte) : (s.setA v).flags = s.flags := rfl
@[simp] theorem setA_cyc (s : State) (v : Byte) : (s.setA v).cyc = s.cyc := rfl
@[simp] theorem setA_status (s : State) (v : Byte) : (s.setA v).status = s.status := rfl
@[simp] theorem setA_mem (s : State) (v : Byte) : (s.setA v).mem = s.mem := rfl

@[simp] theorem setX_pc (s : State) (v : Byte) : (s.setX v).pc = s.pc := rfl
@[simp] theorem setX_sp (s : State) (v : Byte) : (s.setX v).sp = s.sp := rfl
@[simp] theorem setX_a (s : State) (v : Byte) : (s.setX v).a = s.a := rfl
@[simp] theorem setX_x (s : State) (v : Byte) : (s.setX v).x = v := rfl
@[simp] theorem setX_y (s : State) (v : Byte) : (s.setX v).y = s.y := rfl
@[simp] theorem setX_flags (s : State) (v : Byte) : (s.setX v).flags = s.flags := rfl
@[simp] theorem setX_cyc (s : State) (v : Byte) : (s.setX v).cyc = s.cyc := rfl
@[simp] theorem setX_status (s : State) (v : Byte) : (s.setX v).status = s.status := rfl
@[simp] theorem setX_mem (s : State) (v : Byte) : (s.setX v).mem = s.mem := rfl

@[simp] theorem setY_pc (s : State) (v : Byte) : (s.setY v).pc = s.pc := rfl
@[simp] theorem setY_sp (s : State) (v : Byte) : (s.setY v).sp = s.sp := rfl
@[simp] theorem setY_a (s : State) (v : Byte) : (s.setY v).a = s.a := rfl
@[simp] theorem setY_x (s : State) (v : Byte) : (s.setY v).x = s.x := rfl
@[simp] theorem setY_y (s : State) (v : Byte) : (s.setY v).y = v := rfl
@[simp] theorem setY_flags (s : State) (v : Byte) : (s.setY v).flags = s.flags := rfl
@[simp] theorem setY_cyc (s : State) (v : Byte) : (s.setY v).cyc = s.cyc := rfl
@[simp] theorem setY_status (s : State) (v : Byte) : (s.setY v).status = s.status := rfl
@[simp] theorem setY_mem (s : State) (v : Byte) : (s.setY v).mem = s.mem := rfl

@[simp] theorem setFlags_pc (s : State) (v : Flags) : (s.setFlags v).pc = s.pc := rfl
@[simp] theorem setFlags_sp (s : State) (v : Flags) : (s.setFlags v).sp = s.sp := rfl
@[simp] theorem setFlags_a (s : State) (v : Flags) : (s.setFlags v).a = s.a := rfl
@[simp] theorem setFlags_x (s : State) (v : Flags) : (s.setFlags v).x = s.x := rfl
@[simp] theorem setFlags_y (s : State) (v : Flags) : (s.setFlags v).y = s.y := rfl
@[simp] theorem setFlags_flags (s : State) (v : Flags) : (s.setFlags v).flags = v := rfl
@[simp] theorem setFlags_cyc (s : State) (v : Flags) : (s.setFlags v).cyc = s.cyc := rfl
@[simp] theorem setFlags_status (s : State) (v : Flags) : (s.setFlags v).status = s.status := rfl
@[simp] theorem setFlags_mem (s : State) (v : Flags) : (s.setFlags v).mem = s.mem := rfl

@[simp] theorem setCyc_pc (s : State) (v : Nat) : (s.setCyc v).pc = s.pc := rfl
@[simp] theorem setCyc_sp (s : State) (v : Nat) : (s.setCyc v).sp = s.sp := rfl
@[simp] theorem setCyc_a (s : State) (v : Nat) : (s.setCyc v).a = s.a := rfl
@[simp] theorem setCyc_x (s : State) (v : Nat) : (s.setCyc v).x = s.x := rfl
@[simp] theorem setCyc_y (s : State) (v : Nat) : (s.setCyc v).y = s.y := rfl
@[simp] theorem setCyc_flags (s : State) (v : Nat) : (s.setCyc v).flags = s.flags := rfl
@[simp] theorem setCyc_cyc (s : State) (v : Nat) : (s.setCyc v).cyc = v := rfl
@[simp] theorem setCyc_status (s : State) (v : Nat) : (s.setCyc v).status = s.status := rfl
@[simp] theorem setCyc_mem (s : State) (v : Nat) : (s.setCyc v).mem = s.mem := rfl

@[simp] theorem setStatus_pc (s : State) (v : RunStatus) : (s.setStatus v).pc = s.pc := rfl
@[simp] theorem setStatus_sp (s : State) (v : RunStatus) : (s.setStatus v).sp = s.sp := rfl
@[simp] theorem setStatus_a (s : State) (v : RunStatus) : (s.setStatus v).a = s.a := rfl
@[simp] theorem setStatus_x (s : State) (v : RunStatus) : (s.setStatus v).x = s.x := rfl
@[simp] theorem setStatus_y (s : State) (v : RunStatus) : (s.setStatus v).y = s.y := rfl
@[simp] theorem setStatus_flags (s : State) (v : RunStatus) : (s.setStatus v).flags = s.flags := rfl
@[simp] theorem setStatus_cyc (s : State) (v : RunStatus) : (s.setStatus v).cyc = s.cyc := rfl
@[simp] theorem setStatus_status (s : State) (v : RunStatus) : (s.setStatus v).status = v := rfl
@[simp] theorem setStatus_mem (s : State) (v : RunStatus) : (s.setStatus v).mem = s.mem := rfl

@[simp] theorem setMem_pc (s : State) (v : Memory) : (s.setMem v).pc = s.pc := rfl
@[simp] theorem setMem_sp (s : State) (v : Memory) : (s.setMem v).sp = s.sp := rfl
@[simp] theorem setMem_a (s : State) (v : Memory) : (s.setMem v).a = s.a := rfl
@[simp] theorem setMem_x (s : State) (v : Memory) : (s.setMem v).x = s.x := rfl
@[simp] theorem setMem_y (s : State) (v : Memory) : (s.setMem v).y = s.y := rfl
@[simp] theorem setMem_flags (s : State) (v : Memory) : (s.setMem v).flags = s.flags := rfl
@[simp] theorem setMem_cyc (s : State) (v : Memory) : (s.setMem v).cyc = s.cyc := rfl
@[simp] theorem setMem_status (s : State) (v : Memory) : (s.setMem v).status = s.status := rfl
@[simp] theorem setMem_mem (s : State) (v : Memory) : (s.setMem v).mem = v := rfl

@[simp] theorem setZN_pc (v : Byte) (s : State) : (setZN v s).pc = s.pc := rfl
@[simp] theorem setZN_sp (v : Byte) (s : State) : (setZN v s).sp = s.sp := rfl
@[simp] theorem setZN_a (v : Byte) (s : State) : (setZN v s).a = s.a := rfl
@[simp] theorem setZN_x (v : Byte) (s : State) : (setZN v s).x = s.x := rfl
@[simp] theorem setZN_y (v : Byte) (s : State) : (setZN v s).y = s.y := rfl
@[simp] theorem setZN_flags (v : Byte) (s : State) : (setZN v s).flags = flagsZN v s.flags := rfl
@[simp] theorem setZN_cyc (v : Byte) (s : State) : (setZN v s).cyc = s.cyc := rfl
@[simp] theorem setZN_status (v : Byte) (s : State) : (setZN v s).status = s.status := rfl
@[simp] theorem setZN_mem (v : Byte) (s : State) : (setZN v s).mem = s.mem := rfl

@[simp] theorem flagsZN_carry (v : Byte) (f : Flags) : (flagsZN v f).carry = f.carry := rfl
@[simp] theorem flagsZN_interruptDisable (v : Byte) (f : Flags) : (flagsZN v f).interruptDisable = f.interruptDisable := rfl
@[simp] theorem flagsZN_decimal (v : Byte) (f : Flags) : (flagsZN v f).decimal = f.decimal := rfl
@[simp] theorem flagsZN_brk (v : Byte) (f : Flags) : (flagsZN v f).brk = f.brk := rfl
@[simp] theorem flagsZN_overflow (v : Byte) (f : Flags) : (flagsZN v f).overflow = f.overflow := rfl
@[simp] theorem flagsZN_zero (v : Byte) (f : Flags) : (flagsZN v f).zero = decide (v = 0#8) := rfl
@[simp] theorem flagsZN_negative (v : Byte) (f : Flags) : (flagsZN v f).negative = v.getLsbD 7 := rfl

end Sys2Proof.Machine
end

