-- ==== Sys2Proof/Laws/Ops.lean ====
section
/-! SUPPORT. What each shared operation can do, said once: when it answers a next state and which, and when it
faults and what it freezes. Proofs cite these and do not unfold the operations. -/

namespace Sys2Proof.Machine

@[simp] theorem andThen_next {α β : Type} (v : α) (k : α → Result β) : andThen (.next v) k = k v := rfl

@[simp] theorem andThen_fault {α β : Type} (f : Fault) (k : α → Result β) : andThen (.fault f) k = .fault f := rfl

@[simp] theorem andThen_refused {α β : Type} (e : Refusal) (k : α → Result β) :
    andThen (.refused e) k = .refused e := rfl

/-- A sequence answers a value exactly when both parts do. -/
theorem andThen_eq_next {α β : Type} {r : Result α} {k : α → Result β} {w : β} :
    andThen r k = .next w ↔ ∃ v, r = .next v ∧ k v = .next w := by
  cases r <;> simp [andThen]

/-- A sequence faults exactly when its first part does, or its second after it. -/
theorem andThen_eq_fault {α β : Type} {r : Result α} {k : α → Result β} {f : Fault} :
    andThen r k = .fault f ↔ r = .fault f ∨ ∃ v, r = .next v ∧ k v = .fault f := by
  cases r <;> simp [andThen]

/-- A sequence is refused exactly when its first part is, or its second after it. -/
theorem andThen_eq_refused {α β : Type} {r : Result α} {k : α → Result β} {e : Refusal} :
    andThen r k = .refused e ↔ r = .refused e ∨ ∃ v, r = .next v ∧ k v = .refused e := by
  cases r <;> simp [andThen]

theorem spend_of_le {n : Nat} {s : State} (h : n ≤ s.cyc) : spend n s = .next (s.setCyc (s.cyc - n)) :=
  if_neg (by omega)

theorem spend_of_lt {n : Nat} {s : State} (h : s.cyc < n) :
    spend n s = .fault (.budgetUnderflow n s.cyc (s.setStatus .halted)) :=
  if_pos h

/-- Everything `Spend(n)` can do (R100, R161). -/
theorem spend_cases (n : Nat) (s : State) :
    (n ≤ s.cyc ∧ spend n s = .next (s.setCyc (s.cyc - n))) ∨
    (s.cyc < n ∧ spend n s = .fault (.budgetUnderflow n s.cyc (s.setStatus .halted))) := by
  rcases Nat.lt_or_ge s.cyc n with h | h
  · exact .inr ⟨h, spend_of_lt h⟩
  · exact .inl ⟨h, spend_of_le h⟩

/-- `FetchByte(true, none)` with a cycle left: the byte at `pc`, `pc` past it. -/
theorem fetchByte_stream {s : State} (h : 1 ≤ s.cyc) :
    fetchByte true none s = .next (memRead s.mem s.pc, (s.setCyc (s.cyc - 1)).setPc (s.pc + 1#16)) := by
  rw [fetchByte, spend_of_le h]
  rfl

/-- `FetchByte(false, addr)` with a cycle left: the byte at `addr`, `pc` unmoved. -/
theorem fetchByte_data {s : State} (addr : Word) (h : 1 ≤ s.cyc) :
    fetchByte false (some addr) s = .next (memRead s.mem addr, s.setCyc (s.cyc - 1)) := by
  rw [fetchByte, spend_of_le h]
  rfl

/-- `FetchByte` in any combination with no cycle left: the fault, before any effect. -/
theorem fetchByte_unpaid {s : State} (advance : Bool) (addr? : Option Word) (h : s.cyc = 0) :
    fetchByte advance addr? s = .fault (.budgetUnderflow 1 0 (s.setStatus .halted)) := by
  rw [fetchByte, spend_of_lt (by omega), h]
  rfl

/-- Everything the opcode fetch can do. -/
theorem fetchOpcode_cases (s : State) :
    (1 ≤ s.cyc ∧ fetchOpcode s = .next ((s.setCyc (s.cyc - 1)).setPc (s.pc + 1#16))) ∨
    (s.cyc = 0 ∧ fetchOpcode s = .fault (.budgetUnderflow 1 0 (s.setStatus .halted))) := by
  rcases Nat.eq_zero_or_pos s.cyc with h | h
  · exact .inr ⟨h, by rw [fetchOpcode, fetchByte_unpaid _ _ h]; rfl⟩
  · exact .inl ⟨h, by rw [fetchOpcode, fetchByte_stream h]; rfl⟩

theorem fetchOpcode_of_pos {s : State} (h : 1 ≤ s.cyc) :
    fetchOpcode s = .next ((s.setCyc (s.cyc - 1)).setPc (s.pc + 1#16)) := by
  rcases fetchOpcode_cases s with h' | h'
  · exact h'.2
  · omega

/-- `WriteWord` with its two cycles: both bytes written. -/
theorem writeWord_of_le {s : State} (addr v : Word) (h : 2 ≤ s.cyc) :
    writeWord addr v s = .next ((s.setCyc (s.cyc - 2)).setMem (memWriteWord s.mem addr v)) := by
  rw [writeWord, spend_of_le h]
  rfl

/-- `WriteWord` without its two cycles: the fault, no byte written. -/
theorem writeWord_of_lt {s : State} (addr v : Word) (h : s.cyc < 2) :
    writeWord addr v s = .fault (.budgetUnderflow 2 s.cyc (s.setStatus .halted)) := by
  rw [writeWord, spend_of_lt h]
  rfl

/-- `FetchWord` with its two cycles: the word at `pc`, `pc` past it. -/
theorem fetchWord_of_le {s : State} (h : 2 ≤ s.cyc) :
    fetchWord s = .next (joinWord (memRead s.mem s.pc) (memRead s.mem (s.pc + 1#16)),
      (s.setCyc (s.cyc - 1 - 1)).setPc (s.pc + 1#16 + 1#16)) := by
  rw [fetchWord, fetchByte_stream (by omega), andThen_next, fetchByte_stream (by simp; omega)]
  rfl

/-- The core does nothing while it is not running (R162, R173). -/
theorem step_stopped {s : State} (h : s.status ≠ .running) : step s = .next s := by
  unfold step
  cases hs : s.status <;> simp_all

/-- The normal end of a run (R112 (a)). -/
theorem step_end {s : State} (h : s.status = .running) (hc : s.cyc = 0) : step s = .next (s.setStatus .idle) := by
  simp [step, h, hc]

/-- One iteration (R117). -/
theorem step_iteration {s : State} (h : s.status = .running) (hc : s.cyc ≠ 0) : step s = exec (fetchInstr s) s := by
  simp [step, h, hc]

/-- Everything a step can do: one of the three above. -/
theorem step_cases (s : State) :
    (s.status ≠ .running ∧ step s = .next s) ∨
    (s.status = .running ∧ s.cyc = 0 ∧ step s = .next (s.setStatus .idle)) ∨
    (s.status = .running ∧ s.cyc ≠ 0 ∧ step s = exec (fetchInstr s) s) := by
  by_cases h : s.status = .running
  · by_cases hc : s.cyc = 0
    · exact .inr (.inl ⟨h, hc, step_end h hc⟩)
    · exact .inr (.inr ⟨h, hc, step_iteration h hc⟩)
  · exact .inl ⟨h, step_stopped h⟩

/-- Everything a move allowed only while the core is stopped can do. -/
theorem whileStopped_cases {α : Type} (s : State) (v : α) :
    (s.status ≠ .running ∧ whileStopped s v = .next v) ∨
    (s.status = .running ∧ whileStopped s v = .refused .hostWhileRunning) := by
  unfold whileStopped
  cases s.status <;> simp

/-- A register or flag write that is accepted has exactly its effect, and the core was reset and stopped. -/
theorem registerWrite_eq_next {s t u : State} :
    registerWrite s t = .next u ↔ (s.status = .idle ∨ s.status = .halted) ∧ u = t := by
  unfold registerWrite
  cases s.status <;> simp [eq_comm]

/-- A launch that is accepted was given in IDLE and loads the budget. -/
theorem launch_eq_next {budget : Nat} {s t : State} :
    launch budget s = .next t ↔ s.status = .idle ∧ t = launchEffect budget s := by
  unfold launch
  cases s.status <;> simp [eq_comm]

end Sys2Proof.Machine
end

