-- ==== Sys2Proof/Laws/Operands.lean ====
section
/-! SUPPORT. What each addressing mode can do: the value and the state it answers when its cycles are there. -/

namespace Sys2Proof.Machine

/-- Immediate answers its byte, one cycle paid and `pc` moved by one. -/
theorem operandImmediate_of_le {s : State} (imm8 : Byte) (h : 1 ≤ s.cyc) :
    operandImmediate imm8 s = .next (imm8, (s.setCyc (s.cyc - 1)).setPc (s.pc + 1#16)) := by
  rw [operandImmediate, fetchByte_stream h]
  rfl

/-- Zero Page answers the byte at its address, two cycles paid and `pc` moved by one. -/
theorem operandZeroPage_of_le {s : State} (zp8 : Byte) (h : 2 ≤ s.cyc) :
    operandZeroPage zp8 s =
      .next (memRead s.mem (zext16 zp8), ((s.setCyc (s.cyc - 1)).setPc (s.pc + 1#16)).setCyc (s.cyc - 1 - 1)) := by
  rw [operandZeroPage, fetchByte_stream (by omega), andThen_next, fetchByte_data _ (by simp; omega)]
  rfl

/-- Zero Page,X answers the byte at its wrapped address, three cycles paid and `pc` moved by one. -/
theorem operandZeroPageX_of_le {s : State} (base8 : Byte) (h : 3 ≤ s.cyc) :
    operandZeroPageX base8 s =
      .next (memRead s.mem (zeroPageXAddress base8 s.x),
        (((s.setCyc (s.cyc - 1)).setPc (s.pc + 1#16)).setCyc (s.cyc - 1 - 1)).setCyc (s.cyc - 1 - 1 - 1)) := by
  rw [operandZeroPageX, fetchByte_stream (by omega), andThen_next, spend_of_le (by simp; omega), andThen_next,
    fetchByte_data _ (by simp; omega)]
  rfl

/-- Absolute answers its address, two cycles paid and `pc` moved by two. -/
theorem operandAbsolute_of_le {s : State} (target : Word) (h : 2 ≤ s.cyc) :
    operandAbsolute target s =
      .next (target, (s.setCyc (s.cyc - 1 - 1)).setPc (s.pc + 1#16 + 1#16)) := by
  rw [operandAbsolute, fetchWord_of_le h]
  rfl

end Sys2Proof.Machine
end

