-- ==== Sys2Proof/Laws/PerInstr.lean ====
section
/-! SUPPORT. The per-instruction family `EncodeLength`: an instruction is encoded in as many bytes as the length rule
(spec/30_encoding.md R83) gives its opcode byte. -/

namespace Sys2Proof.Laws

def EncodeLength.Statement (i : Instr) : Prop :=
  WellFormed i → (encode i).length = Machine.instrLength (opcodeOf i)

theorem EncodeLength.ldaImm (imm8 : Byte) : EncodeLength.Statement (.ldaImm imm8) := fun _ => rfl

theorem EncodeLength.ldaZp (zp8 : Byte) : EncodeLength.Statement (.ldaZp zp8) := fun _ => rfl

theorem EncodeLength.ldaZpx (base8 : Byte) : EncodeLength.Statement (.ldaZpx base8) := fun _ => rfl

theorem EncodeLength.jsr (target : Word) : EncodeLength.Statement (.jsr target) := fun _ => rfl

theorem EncodeLength.unhandled (op : Byte) : EncodeLength.Statement (.unhandled op) := by
  intro h
  have h : Machine.isHandled op = false := by simpa [WellFormed, Instr.wellFormed] using h
  simp [encode, opcodeOf, Machine.instrLength, Machine.isHandled_eq_false.mp h]

end Sys2Proof.Laws
end

