-- ==== Sys2Proof/Tests/Slice0.lean ====
section
/-! SUPPORT. Tests on small states, one step each; expected values are those of spec/95_test_vectors.md and of the
encodings of spec/30_encoding.md. Then one witness per statement that has hypotheses. -/

namespace Sys2Proof.Tests

open Sys2Proof Sys2Proof.Machine

/-- A run of that budget under way from the reset state, with bytes placed at `0xFFFC`. -/
def launched (bytes : List Byte) (budget : Nat) : State :=
  launchEffect budget (State.reset.setMem (placeBytes bytes 0xFFFC#16 []))

/-- A state that a result leaves, seen through `f`. -/
def seen {β : Type} (f : State → β) (r : Result State) : Option β :=
  match r with
  | .next t => some (f t)
  | .fault (.budgetUnderflow _ _ t) => some (f t)
  | .refused _ => none

/-- The fault's needed and left cycles. -/
def underflow (r : Result State) : Option (Nat × Nat) :=
  match r with
  | .fault (.budgetUnderflow n l _) => some (n, l)
  | .next _ | .refused _ => none

/-! ## Well-formedness -/

theorem test_illFormed_unhandled_ldaImm : ¬ WellFormed (.unhandled 0xA9#8) := by decide
theorem test_illFormed_unhandled_ldaZp : ¬ WellFormed (.unhandled 0xA5#8) := by decide
theorem test_illFormed_unhandled_ldaZpx : ¬ WellFormed (.unhandled 0xB5#8) := by decide
theorem test_illFormed_unhandled_jsr : ¬ WellFormed (.unhandled 0x20#8) := by decide
theorem test_wellFormed_unhandled : WellFormed (.unhandled 0x00#8) ∧ WellFormed (.unhandled 0xFF#8) := by decide

/-! ## Decoding: bytes written out from R81 and R85 -/

/-- `1010 1001`, `imm8` (R85; source P2 of R90). -/
theorem test_decode_ldaImm : decode [0b10101001#8, 0x84#8] = .ok (.ldaImm 0x84#8, []) := rfl
/-- `1010 0101`, `zp8`. -/
theorem test_decode_ldaZp : decode [0b10100101#8, 0x10#8] = .ok (.ldaZp 0x10#8, []) := rfl
/-- `1011 0101`, `base8`. -/
theorem test_decode_ldaZpx : decode [0b10110101#8, 0xFF#8] = .ok (.ldaZpx 0xFF#8, []) := rfl
/-- `0010 0000`, low byte, high byte: `20 34 12` is the target `0x1234` (V-J6). -/
theorem test_decode_jsr : decode [0b00100000#8, 0x34#8, 0x12#8] = .ok (.jsr 0x1234#16, []) := rfl
/-- V-U3: the bytes after an unhandled opcode are the next instruction's. -/
theorem test_decode_unhandled : decode [0xAD#8, 0xA9#8, 0x07#8] = .ok (.unhandled 0xAD#8, [0xA9#8, 0x07#8]) := rfl
/-- The neighbours of the four opcodes are unhandled (the boundary check of 95_test_vectors.md). -/
theorem test_decode_boundary :
    ([0x1F#8, 0x21#8, 0xA4#8, 0xA6#8, 0xA8#8, 0xAA#8, 0xB4#8, 0xB6#8] : List Byte).all
      (fun op => decodeBytes op 0x00#8 0x00#8 == .unhandled op) = true := by decide
theorem test_decode_missing : decode [0x20#8, 0x34#8] = .error (.missingOperand 0x20#8) := rfl
/-- The opcode table's word of the JSR row has 8 bits: its operands read as zeros. -/
theorem test_decodeTableWord_jsr : decodeTableWord 8 0x20 = some (.jsr 0x0000#16) := by decide
theorem test_decodeTableWord_operand : decodeTableWord 24 0x123420 = some (.jsr 0x1234#16) := by decide

/-! ## Single steps -/

/-- S2. -/
theorem test_ldaImm_negative :
    seen (fun t => (t.a, t.flags.zero, t.flags.negative, t.pc, t.cyc)) (step (launched [0xA9#8, 0x84#8] 2)) =
      some (0x84#8, false, true, 0xFFFE#16, 0) := by decide

/-- V-L6: cut at the operand fetch. -/
theorem test_ldaImm_cut :
    underflow (step (launched [0xA9#8, 0x84#8] 1)) = some (1, 0) ∧
    seen (fun t => (t.a, t.pc, t.status)) (step (launched [0xA9#8, 0x84#8] 1)) =
      some (0x00#8, 0xFFFD#16, .halted) := by decide

/-- V-Z6: `x` takes no part. -/
theorem test_ldaZp_ignores_x :
    seen (fun t => (t.a, t.flags.zero, t.x, t.pc, t.cyc))
        (step (((launched [0xA5#8, 0x10#8] 3).setX 0x05#8).setMem
          (memWrite (memWrite (launched [0xA5#8, 0x10#8] 3).mem 0x0010#16 0x37#8) 0x0015#16 0x99#8))) =
      some (0x37#8, false, 0x05#8, 0xFFFE#16, 0) := by decide

/-- V-Z4: cut at the data read. -/
theorem test_ldaZp_cut :
    seen (fun t => (t.a, t.pc, t.cyc, t.status)) (step (launched [0xA5#8, 0x10#8] 2)) =
      some (0x00#8, 0xFFFE#16, 0, .halted) := by decide

/-- S4: the index sum wraps inside the zero page. -/
theorem test_ldaZpx_wraps :
    seen (fun t => (t.a, t.x, t.pc, t.cyc))
        (step (((launched [0xB5#8, 0xFF#8] 4).setX 0x02#8).setMem
          (memWrite (memWrite (launched [0xB5#8, 0xFF#8] 4).mem 0x0001#16 0x5A#8) 0x0101#16 0xEE#8))) =
      some (0x5A#8, 0x02#8, 0xFFFE#16, 0) := by decide

/-- V-X6: cut at the index-addition cycle. -/
theorem test_ldaZpx_cut :
    seen (fun t => (t.a, t.pc, t.cyc, t.status)) (step (launched [0xB5#8, 0xFF#8] 2)) =
      some (0x00#8, 0xFFFE#16, 0, .halted) := by decide

/-- V-J7: `sp` wraps and the word goes to `0x00FF` and `0x0100`. -/
theorem test_jsr_wraps :
    seen (fun t => (t.sp, t.pc, t.cyc, memRead t.mem 0x00FF#16, memRead t.mem 0x0100#16))
        (step ((launched [0x20#8, 0x34#8, 0x12#8] 6).setSp 0x00#8)) =
      some (0xFF#8, 0x1234#16, 0, 0xFE#8, 0xFF#8) := by decide

/-- V-J5 and V-J4: the final cycle is cut after the word is written, the word write before. -/
theorem test_jsr_cut :
    seen (fun t => (t.sp, t.pc, t.cyc, memRead t.mem 0x00FE#16)) (step (launched [0x20#8, 0x34#8, 0x12#8] 5)) =
      some (0xFE#8, 0xFFFF#16, 0, 0xFE#8) ∧
    seen (fun t => (t.sp, t.pc, t.cyc, memRead t.mem 0x00FE#16)) (step (launched [0x20#8, 0x34#8, 0x12#8] 4)) =
      some (0xFE#8, 0xFFFF#16, 1, 0x00#8) := by decide

/-- V-J14: what the stack base moves. -/
theorem test_jsr_base :
    seen (fun t => (memRead t.mem 0x01FE#16, memRead t.mem 0x01FF#16, memRead t.mem 0x00FE#16))
        (jsrWithBase 0x0100#16 0x1234#16 (launched [] 6)) = some (0xFE#8, 0xFF#8, 0x00#8) := by decide

/-- V-U4. -/
theorem test_unhandled :
    seen (fun t => (t.pc, t.cyc, t.mem)) (step (launched [0xFF#8] 1)) =
      some (0xFFFD#16, 0, [(0xFFFC, 0xFF#8)]) := by decide

/-- V-U4's report. -/
theorem test_unhandled_report : reportAt (launched [0xFF#8] 1) = some { op := 0xFF#8, addr := 0xFFFC#16 } := by decide

/-- V-E1: `execute(0)` fetches nothing. -/
theorem test_execute_zero :
    seen (fun t => (t.pc, t.cyc, t.status)) (executeRun 0 State.reset) = some (0xFFFC#16, 0, .idle) := by decide

/-- V-E2. -/
theorem test_execute_unreset : command (.execute 2) State.constructed = .refused .executeUnreset := rfl

/-- The step from the reset state with a table word placed runs that row's instruction. -/
theorem test_withFetchWord :
    seen (fun t => (t.pc, t.sp, t.cyc)) (step (State.reset.withFetchWord 8 0x20)) = some (0x0000#16, 0xFE#8, 0) := by
  decide

/-! ## Witnesses: for each statement with hypotheses, a state and operands that meet them -/

theorem witness_ResetCommandEstablishesState : (launched [] 3).setStatus .halted ≠ State.reset ∧
    ((launched [] 3).setStatus .halted).status ≠ .running := by decide

theorem witness_ExecuteAcceptedOnlyInIdle :
    State.reset.status = .idle ∧ State.constructed.status = .unreset ∧
    (State.reset.setStatus .halted).status = .halted ∧ (launched [] 1).status = .running := by decide

theorem witness_HostHasNoMoveDuringRun : (launched [] 1).status = .running := rfl

theorem witness_HostRegisterWriteSetsOneItem :
    (State.reset.status = .idle ∨ State.reset.status = .halted) ∧ State.constructed.status = .unreset := by decide

theorem witness_HostCellWriteSetsOneCell :
    State.reset.status ≠ .running ∧ Memory.wf State.reset.mem = true ∧ (0xFFFF#16 : Word) ≠ 0x0000#16 := by decide

theorem witness_HostReadsFindTheState :
    State.reset.status ≠ .running ∧ (State.reset.status = .idle ∨ State.reset.status = .halted) := by decide

theorem witness_ExecuteZeroPerformsNoIteration : State.reset.status = .idle := rfl

theorem witness_RunEndsIdleOrHalted : State.reset.status = .idle := rfl

/-- One unhandled opcode, then another run of one. -/
theorem witness_SuccessiveRunsCompose :
    ∃ t u, executeRun 1 State.reset = .next t ∧ executeRun 1 t = .next u := ⟨_, _, rfl, rfl⟩

/-- Both directions at a boundary (2) of a state that is cut by another budget (1). -/
theorem witness_RunEndsNormallyOnInstructionBoundary :
    ((launched [0xA9#8, 0x84#8] 0).setStatus .idle).status = .idle ∧
    costOfFirst 1 ((launched [0xA9#8, 0x84#8] 0).setStatus .idle) = 2 := by decide

theorem witness_UnhandledOnlyRunEndsForEveryBudget :
    State.reset.status = .idle ∧ ∀ addr, isHandled (memRead State.reset.mem addr) = false := ⟨rfl, fun _ => rfl⟩

theorem witness_SessionLeavesCoreStopped :
    State.reset.status ≠ .running ∧ Memory.wf State.reset.mem = true := by decide

theorem witness_SpendChecksBeforeItDeducts : 2 ≤ (launched [] 2).cyc ∧ (launched [] 1).cyc < 2 := by decide

theorem witness_FetchByteInEveryCombination : 1 ≤ (launched [] 1).cyc ∧ (launched [] 0).cyc = 0 := by decide

theorem witness_WriteWordWholeOrNotAtAll : 2 ≤ (launched [] 2).cyc ∧ (launched [] 1).cyc < 2 := by decide

theorem witness_ByteWriteChangesOneCell :
    Memory.wf [(0, 1#8), (65535, 2#8)] = true ∧ (0x0000#16 : Word) ≠ 0xFFFF#16 := by decide

theorem witness_WordsAreLittleEndian :
    Memory.wf [(0, 1#8), (65535, 2#8)] = true ∧ 2 ≤ (launched [] 2).cyc := by decide

theorem witness_CanonicalMemoriesReadingAlikeAreEqual :
    Memory.wf [(0, 1#8)] = true ∧
    ∀ addr : Word, memRead [(0, 1#8)] addr = memRead (memWrite [] 0x0000#16 1#8) addr := ⟨by decide, fun _ => rfl⟩

theorem witness_DecodeOfEncodeIsTheInstruction : WellFormed (.jsr 0xFFFF#16) := rfl

theorem witness_EncodeOfDecodeIsTheBytes :
    decode [0x20#8, 0x34#8, 0x12#8, 0x00#8] = .ok (.jsr 0x1234#16, [0x00#8]) := rfl

theorem witness_DecoderRefusesOnlyMissingBytes :
    instrLength 0x20#8 ≤ [0x34#8, 0x12#8].length + 1 ∧ [0x34#8].length + 1 < instrLength 0x20#8 := by decide

theorem witness_InstructionLengthByOpcode :
    decode [0x20#8, 0x34#8, 0x12#8] = .ok (.jsr 0x1234#16, []) ∧
    decode [0xB5#8, 0x34#8] = .ok (.ldaZpx 0x34#8, []) ∧ decode [0x00#8] = .ok (.unhandled 0x00#8, []) :=
  ⟨rfl, rfl, rfl⟩

theorem witness_DispatchByWholeOpcodeByte :
    (launched [0xA9#8] 1).status = .running ∧ (launched [0xA9#8] 1).cyc ≠ 0 ∧
    memRead (launched [0xA9#8] 1).mem 0xFFFC#16 = 0xA9#8 ∧ memRead (launched [0xA5#8] 1).mem 0xFFFC#16 = 0xA5#8 ∧
    memRead (launched [0xB5#8] 1).mem 0xFFFC#16 = 0xB5#8 ∧ memRead (launched [0x20#8] 1).mem 0xFFFC#16 = 0x20#8 ∧
    memRead (launched [0x21#8] 1).mem 0xFFFC#16 = 0x21#8 := by decide

/-- The instruction straddles the top of the address space. -/
theorem witness_StepRunsDecodedInstruction :
    let s := (launched [0x00#8, 0x00#8, 0x00#8, 0xA9#8, 0x33#8] 2).setPc 0xFFFF#16
    s.status = .running ∧ s.cyc ≠ 0 ∧
    decode [memRead s.mem s.pc, memRead s.mem (s.pc + 1#16), memRead s.mem (s.pc + 2#16)] =
      .ok (.ldaImm 0x33#8, [0x00#8]) := ⟨rfl, by decide, rfl⟩

theorem witness_StepRunsEncodedInstruction :
    let s := launched [0x20#8, 0x34#8, 0x12#8] 6
    s.status = .running ∧ s.cyc ≠ 0 ∧ WellFormed (.jsr 0x1234#16) ∧
    ∀ k b, (encode (.jsr 0x1234#16))[k]? = some b → memRead s.mem (s.pc + BitVec.ofNat 16 k) = b := by
  refine ⟨rfl, by decide, rfl, ?_⟩
  rintro (_ | _ | _ | k) b h
  · obtain rfl : (0x20#8 : Byte) = b := Option.some.inj h; decide
  · obtain rfl : (0x34#8 : Byte) = b := Option.some.inj h; decide
  · obtain rfl : (0x12#8 : Byte) = b := Option.some.inj h; decide
  · cases h

theorem witness_StepEndsRunAtZeroBudget : (launched [] 0).status = .running ∧ (launched [] 0).cyc = 0 := by decide

theorem witness_StoppedCoreDoesNothing :
    (State.reset.setStatus .halted).status ≠ .running ∧ (State.reset.setStatus .halted).status = .halted ∧
    Command.writeA 1#8 ≠ .reset ∧ ∃ t, command (.writeA 1#8) (State.reset.setStatus .halted) = .next t :=
  ⟨by decide, rfl, by decide, _, rfl⟩

theorem witness_LdaImmediateLoadsItsOperand : 2 ≤ (launched [] 2).cyc := by decide
theorem witness_LdaZeroPageLoadsTheCell : 3 ≤ (launched [] 3).cyc := by decide
theorem witness_LdaZeroPageXLoadsTheWrappedCell : 4 ≤ (launched [] 4).cyc := by decide
theorem witness_JsrPushesAndJumps : 6 ≤ (launched [] 6).cyc ∧ Memory.wf (launched [] 6).mem = true := by decide

theorem witness_UnhandledAdvancesOneByteOneCycle :
    (0xFF#8 : Byte) ≠ 0xA9#8 ∧ (0xFF#8 : Byte) ≠ 0xA5#8 ∧ (0xFF#8 : Byte) ≠ 0xB5#8 ∧ (0xFF#8 : Byte) ≠ 0x20#8 ∧
    1 ≤ (launched [0xFF#8] 1).cyc ∧ (launched [0xFF#8] 1).status = .running ∧
    memRead (launched [0xFF#8] 1).mem (launched [0xFF#8] 1).pc = 0xFF#8 := by decide

theorem witness_LdaImmediateCutByBudget : (launched [] 1).cyc = 1 := rfl
theorem witness_LdaZeroPageCutByBudget : (launched [] 1).cyc = 1 ∧ (launched [] 2).cyc = 2 := ⟨rfl, rfl⟩
theorem witness_LdaZeroPageXCutByBudget :
    (launched [] 1).cyc = 1 ∧ (launched [] 2).cyc = 2 ∧ (launched [] 3).cyc = 3 := ⟨rfl, rfl, rfl⟩
theorem witness_JsrCutByBudget :
    (launched [] 1).cyc = 1 ∧ (launched [] 2).cyc = 2 ∧ (launched [] 3).cyc = 3 ∧ (launched [] 4).cyc = 4 ∧
    (launched [] 5).cyc = 5 := ⟨rfl, rfl, rfl, rfl, rfl⟩

/-- The three ranges of the flag table at their ends (V-L1 to V-L5). -/
theorem witness_LoadsSetZeroAndNegative :
    isLoad (.ldaImm 0x00#8) = true ∧
    ∀ v ∈ ([0x00#8, 0x01#8, 0x7F#8, 0x80#8, 0xFF#8] : List Byte),
      ∃ t, exec (.ldaImm v) (launched [] 2) = .next t ∧ t.a = v :=
  ⟨rfl, fun _ _ => ⟨_, rfl, rfl⟩⟩

theorem witness_LoadFrame : isLoad (.ldaZpx 0xFF#8) = true ∧ ∃ t, exec (.ldaZpx 0xFF#8) (launched [] 4) = .next t :=
  ⟨rfl, _, rfl⟩

/-- At `sp = 0`, where the push wraps, and the cell after its second byte. -/
theorem witness_JsrFrame :
    (∃ t, exec (.jsr 0x1234#16) ((launched [] 6).setSp 0x00#8) = .next t) ∧
    pushAddress Config.stackBase (((launched [] 6).setSp 0x00#8).sp - 1#8) = 0x00FF#16 ∧
    (0x0101#16 : Word) ≠ 0x00FF#16 ∧ (0x0101#16 : Word) ≠ 0x00FF#16 + 1#16 := ⟨⟨_, rfl⟩, by decide⟩

theorem witness_UnhandledFrame : ∃ t, exec (.unhandled 0x00#8) (launched [] 1) = .next t := ⟨_, rfl⟩

/-- A completed load, a completed JSR and a cut JSR. -/
theorem witness_FlagsWrittenByLoadsReadByNothing :
    (isLoad (.ldaZp 0x10#8) = true ∧ ∃ t, exec (.ldaZp 0x10#8) (launched [] 3) = .next t) ∧
    (isLoad (.jsr 0x1234#16) = false ∧ ∃ t, exec (.jsr 0x1234#16) (launched [] 6) = .next t) ∧
    ∃ n l t, exec (.jsr 0x1234#16) (launched [] 5) = .fault (.budgetUnderflow n l t) :=
  ⟨⟨rfl, _, rfl⟩, ⟨rfl, _, rfl⟩, _, _, _, rfl⟩

theorem witness_DataRegistersHaveTheirOnlyUses :
    (∃ t, exec (.ldaZpx 0xFF#8) (launched [] 4) = .next t) ∧
    (isLoad (.unhandled 0xEA#8) = false ∧ (∀ base8, Instr.unhandled 0xEA#8 ≠ .ldaZpx base8) ∧
      ∃ t, exec (.unhandled 0xEA#8) (launched [] 1) = .next t) :=
  ⟨⟨_, rfl⟩, rfl, fun _ h => (nomatch h), _, rfl⟩

theorem witness_StackPointerMovedOnlyByJsr :
    (isCall (.jsr 0x0000#16) = true ∧ ∃ t, exec (.jsr 0x0000#16) ((launched [] 6).setSp 0x00#8) = .next t) ∧
    (isCall (.ldaImm 0x00#8) = false ∧ ∃ t, exec (.ldaImm 0x00#8) (launched [] 2) = .next t) :=
  ⟨⟨rfl, _, rfl⟩, rfl, _, rfl⟩

theorem witness_ConsecutiveCallsOverlapByOneByte :
    12 ≤ (launched [] 12).cyc ∧ Memory.wf (launched [] 12).mem = true ∧ (launched [] 12).sp ≠ 0x01#8 ∧
    12 ≤ ((launched [] 12).setSp 0x01#8).cyc ∧ ((launched [] 12).setSp 0x01#8).sp = 0x01#8 := by decide

theorem witness_PushedBytesAreTheNextInstruction :
    (launched [] 7).status = .running ∧ 6 < (launched [] 7).cyc ∧ Memory.wf (launched [] 7).mem = true := by decide

/-- A completed JSR that writes `0x0100`, a cut one, and an instruction that is no call. -/
theorem witness_StepsWriteOnlyStackCells :
    (∃ t, step ((launched [0x20#8, 0x34#8, 0x12#8] 6).setSp 0x00#8) = .next t) ∧
    (∃ t n l, step (launched [0x20#8, 0x34#8, 0x12#8] 5) = .fault (.budgetUnderflow n l t)) ∧
    0x0100 < (0x0101#16 : Word).toNat ∧
    (isCall (fetchInstr (launched [0xFF#8] 1)) = false ∧ ∃ t, step (launched [0xFF#8] 1) = .next t) :=
  ⟨⟨_, rfl⟩, ⟨_, _, _, rfl⟩, by decide, rfl, _, rfl⟩

theorem witness_IterationCostsItsTableCycles :
    (launched [0xB5#8, 0xFF#8] 4).status = .running ∧ (launched [0xB5#8, 0xFF#8] 4).cyc ≠ 0 ∧
    ∃ t, step (launched [0xB5#8, 0xFF#8] 4) = .next t := ⟨rfl, by decide, _, rfl⟩

/-- One cycle short, and exact. -/
theorem witness_IterationFaultsExactlyWhenBudgetIsShort :
    (launched [0xA5#8, 0xFF#8] 2).status = .running ∧ (launched [0xA5#8, 0xFF#8] 2).cyc ≠ 0 ∧
    (launched [0xA5#8, 0xFF#8] 2).cyc < 3 ∧ 3 ≤ (launched [0xA5#8, 0xFF#8] 3).cyc := by decide

theorem witness_FaultFreezesTheCore :
    ∃ t n l, step (launched [0x20#8, 0x34#8, 0x12#8] 4) = .fault (.budgetUnderflow n l t) := ⟨_, _, _, rfl⟩

theorem witness_StepsNeverRaiseTheBudget :
    (∃ t, step (launched [0xFF#8] 1) = .next t) ∧ fitsCounter 1 (launched [0xFF#8] 1).cyc ∧
    ∃ t n l, step (launched [0xA9#8, 0x84#8] 1) = .fault (.budgetUnderflow n l t) :=
  ⟨⟨_, rfl⟩, Nat.le_refl 1, _, _, _, rfl⟩

theorem witness_StepKeepsInvariant :
    (launched [0xA9#8, 0x84#8] 2).Inv ∧ ∃ t, step (launched [0xA9#8, 0x84#8] 2) = .next t :=
  ⟨⟨by decide, by decide⟩, _, rfl⟩

/-- A loaded state that a later unhandled opcode steps on from. -/
theorem witness_FlagsDescribeTheLastLoad :
    (isLoad (.ldaImm 0x84#8) = true ∧ ∃ t, exec (.ldaImm 0x84#8) (launched [] 2) = .next t) ∧
    (loadAccumulator 0x84#8 (launched [0xFF#8] 1)).flagsDescribeA ∧
    (∃ t, step (loadAccumulator 0x84#8 (launched [0xFF#8] 1)) = .next t) ∧
    isLoad (.unhandled 0xFF#8) = false ∧ ∃ t, exec (.unhandled 0xFF#8) (launched [0xFF#8] 1) = .next t :=
  ⟨⟨rfl, _, rfl⟩, ⟨rfl, rfl⟩, ⟨_, rfl⟩, rfl, _, rfl⟩

end Sys2Proof.Tests
end

section
/-! The steps of a rule read backwards: what a primitive, an addressing mode or an instruction that answers a next state
has answered. -/

namespace Sys2Proof.Machine

/-- `Spend(n)` completes exactly when the budget holds `n` cycles (R100). -/
theorem spend_eq_next {n : Nat} {s t : State} :
    spend n s = .next t ↔ n ≤ s.cyc ∧ t = s.setCyc (s.cyc - n) := by
  rcases spend_cases n s with ⟨hc, h⟩ | ⟨hc, h⟩ <;> rw [h]
  · simp [hc, eq_comm]
  · simp [Nat.not_le.mpr hc]

/-- `FetchByte(true, none)` completes exactly when a cycle is left (R101). -/
theorem fetchByte_stream_eq_next {s : State} {r : Byte × State} :
    fetchByte true none s = .next r ↔
      1 ≤ s.cyc ∧ r = (memRead s.mem s.pc, (s.setCyc (s.cyc - 1)).setPc (s.pc + 1#16)) := by
  rcases Nat.eq_zero_or_pos s.cyc with hc | hc
  · simp [fetchByte_unpaid _ _ hc, hc]
  · simp [fetchByte_stream hc, Nat.one_le_iff_ne_zero.mpr hc.ne', eq_comm]

/-- `FetchByte(false, addr)` completes exactly when a cycle is left (R101). -/
theorem fetchByte_data_eq_next {addr : Word} {s : State} {r : Byte × State} :
    fetchByte false (some addr) s = .next r ↔ 1 ≤ s.cyc ∧ r = (memRead s.mem addr, s.setCyc (s.cyc - 1)) := by
  rcases Nat.eq_zero_or_pos s.cyc with hc | hc
  · simp [fetchByte_unpaid _ _ hc, hc]
  · simp [fetchByte_data _ hc, Nat.one_le_iff_ne_zero.mpr hc.ne', eq_comm]

/-- The opcode fetch completes exactly when a cycle is left (R110). -/
theorem fetchOpcode_eq_next {s t : State} :
    fetchOpcode s = .next t ↔ 1 ≤ s.cyc ∧ t = (s.setCyc (s.cyc - 1)).setPc (s.pc + 1#16) := by
  rcases fetchOpcode_cases s with ⟨hc, h⟩ | ⟨hc, h⟩ <;> rw [h]
  · simp [hc, eq_comm]
  · simp [hc]

/-- `WriteWord` completes exactly when the budget holds its two cycles (R103). -/
theorem writeWord_eq_next {addr v : Word} {s t : State} :
    writeWord addr v s = .next t ↔
      2 ≤ s.cyc ∧ t = (s.setCyc (s.cyc - 2)).setMem (memWriteWord s.mem addr v) := by
  rcases Nat.lt_or_ge s.cyc 2 with hc | hc
  · simp [writeWord_of_lt _ _ hc, Nat.not_le.mpr hc]
  · simp [writeWord_of_le _ _ hc, hc, eq_comm]

/-- What an immediate operand that is fetched answers (R106). -/
theorem operandImmediate_next {imm8 : Byte} {s : State} {r : Byte × State}
    (h : operandImmediate imm8 s = .next r) :
    r = (imm8, (s.setCyc (s.cyc - 1)).setPc (s.pc + 1#16)) := by
  obtain ⟨r1, h1, h⟩ := andThen_eq_next.mp h
  obtain ⟨-, rfl⟩ := fetchByte_stream_eq_next.mp h1
  cases h; rfl

/-- What a zero-page operand that is fetched answers (R107). -/
theorem operandZeroPage_next {zp8 : Byte} {s : State} {r : Byte × State} (h : operandZeroPage zp8 s = .next r) :
    r = (memRead s.mem (zext16 zp8), (s.setPc (s.pc + 1#16)).setCyc (s.cyc - 1 - 1)) := by
  obtain ⟨r1, h1, h2⟩ := andThen_eq_next.mp h
  obtain ⟨-, rfl⟩ := fetchByte_stream_eq_next.mp h1
  obtain ⟨-, rfl⟩ := fetchByte_data_eq_next.mp h2
  rfl

/-- What an indexed zero-page operand that is fetched answers (R108). -/
theorem operandZeroPageX_next {base8 : Byte} {s : State} {r : Byte × State}
    (h : operandZeroPageX base8 s = .next r) :
    r = (memRead s.mem (zeroPageXAddress base8 s.x), (s.setPc (s.pc + 1#16)).setCyc (s.cyc - 1 - 1 - 1)) := by
  obtain ⟨r1, h1, h⟩ := andThen_eq_next.mp h
  obtain ⟨s2, h2, h3⟩ := andThen_eq_next.mp h
  obtain ⟨-, rfl⟩ := fetchByte_stream_eq_next.mp h1
  obtain ⟨-, rfl⟩ := spend_eq_next.mp h2
  obtain ⟨-, rfl⟩ := fetchByte_data_eq_next.mp h3
  rfl

/-- What an absolute operand that is fetched answers (R109). -/
theorem operandAbsolute_next {target : Word} {s : State} {r : Word × State}
    (h : operandAbsolute target s = .next r) :
    r = (target, (s.setPc (s.pc + 1#16 + 1#16)).setCyc (s.cyc - 1 - 1)) := by
  obtain ⟨w, hw, h⟩ := andThen_eq_next.mp h
  obtain ⟨lo, hlo, hw⟩ := andThen_eq_next.mp hw
  obtain ⟨hi, hhi, hw⟩ := andThen_eq_next.mp hw
  obtain ⟨-, rfl⟩ := fetchByte_stream_eq_next.mp hlo
  obtain ⟨-, rfl⟩ := fetchByte_stream_eq_next.mp hhi
  cases hw
  cases h; rfl

/-- The shape all LDA forms share (R131 to R133): the opcode fetch, the form's operand, the load of it. -/
theorem load_eq_next {operand : State → Result (Byte × State)} {s t : State} :
    (andThen (fetchOpcode s) fun s1 => andThen (operand s1) fun r => .next (loadAccumulator r.1 r.2)) = .next t ↔
      1 ≤ s.cyc ∧ ∃ r, operand ((s.setCyc (s.cyc - 1)).setPc (s.pc + 1#16)) = .next r ∧
        loadAccumulator r.1 r.2 = t := by
  simp [andThen_eq_next, fetchOpcode_eq_next, and_assoc]

/-- A completed load (R130 to R133) moves `pc` and `cyc` and loads one byte; the indexed form's byte is the cell of
`base8 + x`. -/
theorem exec_load_next {i : Instr} {s t : State} (hi : isLoad i = true) (h : exec i s = .next t) :
    ∃ v pc cyc, t = loadAccumulator v ((s.setPc pc).setCyc cyc) ∧
      ∀ base8, i = .ldaZpx base8 → v = memRead s.mem (zeroPageXAddress base8 s.x) := by
  cases i with
  | ldaImm imm8 =>
    obtain ⟨-, r, hr, rfl⟩ := load_eq_next.mp h
    obtain rfl := operandImmediate_next hr
    exact ⟨_, _, _, rfl, nofun⟩
  | ldaZp zp8 =>
    obtain ⟨-, r, hr, rfl⟩ := load_eq_next.mp h
    obtain rfl := operandZeroPage_next hr
    exact ⟨_, _, _, rfl, nofun⟩
  | ldaZpx base8 =>
    obtain ⟨-, r, hr, rfl⟩ := load_eq_next.mp h
    obtain rfl := operandZeroPageX_next hr
    exact ⟨_, _, _, rfl, fun _ hb => by cases hb; rfl⟩
  | jsr target => cases hi
  | unhandled op => cases hi

/-- A completed instruction that is no load (R140, R150) leaves `a`, `x`, `y`, the flags and the status. -/
theorem exec_nonload_next {i : Instr} {s t : State} (hi : isLoad i = false) (h : exec i s = .next t) :
    ∃ pc sp cyc mem, t = (((s.setPc pc).setSp sp).setCyc cyc).setMem mem := by
  cases i with
  | ldaImm imm8 => cases hi
  | ldaZp zp8 => cases hi
  | ldaZpx base8 => cases hi
  | jsr target =>
    obtain ⟨s1, h1, h⟩ := andThen_eq_next.mp h
    obtain ⟨r, h2, h⟩ := andThen_eq_next.mp h
    obtain ⟨s3, h3, h⟩ := andThen_eq_next.mp h
    obtain ⟨s4, h4, h⟩ := andThen_eq_next.mp h
    obtain ⟨-, rfl⟩ := fetchOpcode_eq_next.mp h1
    obtain rfl := operandAbsolute_next h2
    obtain ⟨-, rfl⟩ := writeWord_eq_next.mp h3
    obtain ⟨-, rfl⟩ := spend_eq_next.mp h4
    cases h
    exact ⟨_, _, _, _, rfl⟩
  | unhandled op =>
    obtain ⟨-, rfl⟩ := fetchOpcode_eq_next.mp h
    exact ⟨_, _, _, _, rfl⟩

end Sys2Proof.Machine
end

section
/-! R28: the two result flags describe `a` from a load on. -/

namespace Sys2Proof.Machine

theorem loadAccumulator_flagsDescribeA (v : Byte) (s : State) : (loadAccumulator v s).flagsDescribeA := ⟨rfl, rfl⟩

/-- Every completed LDA form ends with `a <- v; SetZN(a)` (R130). -/
theorem exec_load_flagsDescribeA {i : Instr} {s t : State} (hi : isLoad i = true) (h : exec i s = .next t) :
    t.flagsDescribeA := by
  obtain ⟨v, pc, cyc, rfl, -⟩ := exec_load_next hi h
  exact loadAccumulator_flagsDescribeA v _

theorem exec_nonload_flagsDescribeA {i : Instr} {s t : State} (hi : isLoad i = false) (h : exec i s = .next t) :
    t.flagsDescribeA ↔ s.flagsDescribeA := by
  obtain ⟨pc, sp, cyc, mem, rfl⟩ := exec_nonload_next hi h
  exact Iff.rfl

theorem exec_keeps_flagsDescribeA {i : Instr} {s t : State} (hs : s.flagsDescribeA) (h : exec i s = .next t) :
    t.flagsDescribeA := by
  cases hi : isLoad i with
  | false => exact (exec_nonload_flagsDescribeA hi h).mpr hs
  | true => exact exec_load_flagsDescribeA hi h

theorem step_keeps_flagsDescribeA {s t : State} (hs : s.flagsDescribeA) (h : step s = .next t) :
    t.flagsDescribeA := by
  rcases step_cases s with ⟨-, hstep⟩ | ⟨-, -, hstep⟩ | ⟨-, -, hstep⟩ <;> rw [hstep] at h
  · cases h; exact hs
  · cases h; exact hs
  · exact exec_keeps_flagsDescribeA hs h

/-- Reset clears zero although `a` is 0 (R33). -/
theorem reset_not_flagsDescribeA : ¬ State.reset.flagsDescribeA := by
  rintro ⟨hz, -⟩
  exact absurd hz (by decide)

/-- Settles O55: a load establishes the property, every other instruction leaves `a` and the flags as they were, and a
step that performs no instruction changes the status alone. -/
theorem flagsDescribeTheLastLoad : Obligations.FlagsDescribeTheLastLoad :=
  ⟨fun _ _ _ => exec_load_flagsDescribeA, fun _ _ => step_keeps_flagsDescribeA,
    fun _ _ _ => exec_nonload_flagsDescribeA, reset_not_flagsDescribeA⟩

end Sys2Proof.Machine
end

section
/-! Noninterference, for the fields no micro-operation looks at: a rule run from an updated state does the same as from
the state itself, and what it leaves, completing or faulting, is updated in the same way. -/

namespace Sys2Proof.Machine

/-- An update of fields other than `pc`, `sp`, `cyc`, `status` and `mem`: it leaves those the primitives read as they
are, and may be done before or after each of the primitives' own updates. -/
structure Unseen (u : State → State) : Prop where
  pc (s : State) : (u s).pc = s.pc
  sp (s : State) : (u s).sp = s.sp
  cyc (s : State) : (u s).cyc = s.cyc
  mem (s : State) : (u s).mem = s.mem
  setPc (s : State) (v : Word) : (u s).setPc v = u (s.setPc v)
  setSp (s : State) (v : Byte) : (u s).setSp v = u (s.setSp v)
  setCyc (s : State) (v : Nat) : (u s).setCyc v = u (s.setCyc v)
  setStatus (s : State) (v : RunStatus) : (u s).setStatus v = u (s.setStatus v)
  setMem (s : State) (v : Memory) : (u s).setMem v = u (s.setMem v)

theorem unseen_setA (v : Byte) : Unseen (·.setA v) := by constructor <;> intros <;> rfl
theorem unseen_setX (v : Byte) : Unseen (·.setX v) := by constructor <;> intros <;> rfl
theorem unseen_setY (v : Byte) : Unseen (·.setY v) := by constructor <;> intros <;> rfl
theorem unseen_setFlags (f : Flags) : Unseen (·.setFlags f) := by constructor <;> intros <;> rfl

/-- A result with `g` done to the value it answers and `u` to the state its fault leaves. -/
def mapResult {α β : Type} (u : State → State) (g : α → β) : Result α → Result β
  | .next v => .next (g v)
  | .fault (.budgetUnderflow needed left frozen) => .fault (.budgetUnderflow needed left (u frozen))
  | .refused e => .refused e

@[simp] theorem mapResult_next {α β : Type} (u : State → State) (g : α → β) (v : α) :
    mapResult u g (.next v) = .next (g v) := rfl

@[simp] theorem mapResult_fault {α β : Type} (u : State → State) (g : α → β) (needed left : Nat) (frozen : State) :
    mapResult u g (.fault (.budgetUnderflow needed left frozen)) = .fault (.budgetUnderflow needed left (u frozen)) :=
  rfl

/-- A sequence commutes with an update when its two parts do. -/
theorem andThen_mapResult {α α' β β' : Type} {u : State → State} {g : α → α'} {g' : β → β'} {r : Result α}
    {r' : Result α'} {k : α → Result β} {k' : α' → Result β'} (hr : r' = mapResult u g r)
    (hk : ∀ v, k' (g v) = mapResult u g' (k v)) : andThen r' k' = mapResult u g' (andThen r k) := by
  subst hr
  cases r with
  | next v => exact hk v
  | fault f => rfl
  | refused e => rfl

section
variable {u : State → State} (hu : Unseen u)
include hu

theorem spend_unseen (n : Nat) (s : State) : spend n (u s) = mapResult u u (spend n s) := by
  rcases spend_cases n s with ⟨hc, h⟩ | ⟨hc, h⟩ <;> rw [h]
  · rw [spend_of_le (by rwa [hu.cyc]), hu.cyc, hu.setCyc, mapResult_next]
  · rw [spend_of_lt (by rwa [hu.cyc]), hu.cyc, hu.setStatus, mapResult_fault]

theorem fetchByte_unseen (advance : Bool) (addr? : Option Word) (s : State) :
    fetchByte advance addr? (u s) = mapResult u (Prod.map id u) (fetchByte advance addr? s) :=
  andThen_mapResult (spend_unseen hu 1 s) fun s1 => by
    cases advance <;> simp [hu.pc, hu.mem, hu.setPc]

theorem fetchOpcode_unseen (s : State) : fetchOpcode (u s) = mapResult u u (fetchOpcode s) :=
  andThen_mapResult (fetchByte_unseen hu true none s) fun _ => rfl

theorem fetchWord_unseen (s : State) : fetchWord (u s) = mapResult u (Prod.map id u) (fetchWord s) :=
  andThen_mapResult (fetchByte_unseen hu true none s) fun lo =>
    andThen_mapResult (fetchByte_unseen hu true none lo.2) fun _ => rfl

theorem writeWord_unseen (addr v : Word) (s : State) :
    writeWord addr v (u s) = mapResult u u (writeWord addr v s) :=
  andThen_mapResult (spend_unseen hu 2 s) fun s1 => by rw [hu.mem, hu.setMem, mapResult_next]

theorem operandImmediate_unseen (imm8 : Byte) (s : State) :
    operandImmediate imm8 (u s) = mapResult u (Prod.map id u) (operandImmediate imm8 s) :=
  andThen_mapResult (fetchByte_unseen hu true none s) fun _ => rfl

theorem operandZeroPage_unseen (zp8 : Byte) (s : State) :
    operandZeroPage zp8 (u s) = mapResult u (Prod.map id u) (operandZeroPage zp8 s) :=
  andThen_mapResult (fetchByte_unseen hu true none s) fun r => fetchByte_unseen hu false _ r.2

/-- The index is read here, so the update must leave `x` too. -/
theorem operandZeroPageX_unseen (hx : ∀ s, (u s).x = s.x) (base8 : Byte) (s : State) :
    operandZeroPageX base8 (u s) = mapResult u (Prod.map id u) (operandZeroPageX base8 s) :=
  andThen_mapResult (fetchByte_unseen hu true none s) fun r =>
    andThen_mapResult (spend_unseen hu 1 r.2) fun s2 => by rw [hx]; exact fetchByte_unseen hu false _ s2

theorem operandAbsolute_unseen (target : Word) (s : State) :
    operandAbsolute target (u s) = mapResult u (Prod.map id u) (operandAbsolute target s) :=
  andThen_mapResult (fetchWord_unseen hu s) fun _ => rfl

theorem execJsr_unseen (target : Word) (s : State) : execJsr target (u s) = mapResult u u (execJsr target s) :=
  andThen_mapResult (fetchOpcode_unseen hu s) fun s1 =>
    andThen_mapResult (operandAbsolute_unseen hu target s1) fun r => by
      simp only [Prod.map_snd, Prod.map_fst, id, hu.sp, hu.setSp, hu.pc]
      exact andThen_mapResult (writeWord_unseen hu _ _ _) fun s3 =>
        andThen_mapResult (spend_unseen hu 1 s3) fun s4 => by rw [hu.setPc, mapResult_next]

/-- An instruction run from an updated state: what it freezes is updated, and so is what it completes in, but for a load,
whose end `loadAccumulator` may turn the update `u` into another, `g`. -/
theorem exec_unseen {i : Instr} {g : State → State}
    (hload : ∀ v s, loadAccumulator v (u s) = g (loadAccumulator v s))
    (hx : ∀ base8, i = .ldaZpx base8 → ∀ s, (u s).x = s.x) (s : State) :
    exec i (u s) = mapResult u (if isLoad i then g else u) (exec i s) := by
  have hend (r : Byte × State) :
      (.next (loadAccumulator r.1 (u r.2)) : Result State) = mapResult u g (.next (loadAccumulator r.1 r.2)) := by
    rw [hload, mapResult_next]
  cases i with
  | ldaImm imm8 =>
    exact andThen_mapResult (fetchOpcode_unseen hu s) fun s1 =>
      andThen_mapResult (operandImmediate_unseen hu imm8 s1) hend
  | ldaZp zp8 =>
    exact andThen_mapResult (fetchOpcode_unseen hu s) fun s1 =>
      andThen_mapResult (operandZeroPage_unseen hu zp8 s1) hend
  | ldaZpx base8 =>
    exact andThen_mapResult (fetchOpcode_unseen hu s) fun s1 =>
      andThen_mapResult (operandZeroPageX_unseen hu (hx base8 rfl) base8 s1) hend
  | jsr target => exact execJsr_unseen hu target s
  | unhandled op => exact fetchOpcode_unseen hu s

end

/-- R27: no instruction reads a flag; a load writes two of them over what they were. -/
theorem exec_setFlags (i : Instr) (f : Flags) (s : State) :
    exec i (s.setFlags f) =
      mapResult (·.setFlags f)
        (fun t => t.setFlags
          (if isLoad i then { f with zero := t.flags.zero, negative := t.flags.negative } else f))
        (exec i s) := by
  have h := exec_unseen (i := i)
    (g := fun t => t.setFlags { f with zero := t.flags.zero, negative := t.flags.negative })
    (unseen_setFlags f) (fun _ _ => rfl) (fun _ _ _ => rfl) s
  cases hi : isLoad i <;> simpa [hi] using h

/-- R23: no instruction reads `a`; a load writes it. -/
theorem exec_setA (i : Instr) (v : Byte) (s : State) :
    exec i (s.setA v) = mapResult (·.setA v) (fun t => if isLoad i then t else t.setA v) (exec i s) := by
  have h := exec_unseen (i := i) (g := fun t => t) (unseen_setA v) (fun _ _ => rfl) (fun _ _ _ => rfl) s
  cases hi : isLoad i <;> simpa [hi] using h

/-- R23: no instruction reads or writes `y`. -/
theorem exec_setY (i : Instr) (v : Byte) (s : State) :
    exec i (s.setY v) = mapResult (·.setY v) (·.setY v) (exec i s) := by
  simpa using exec_unseen (i := i) (g := (·.setY v)) (unseen_setY v) (fun _ _ => rfl) (fun _ _ _ => rfl) s

/-- R23: no instruction but LDA zero page,X reads `x`, and none writes it. -/
theorem exec_setX {i : Instr} (hi : ∀ base8, i ≠ .ldaZpx base8) (v : Byte) (s : State) :
    exec i (s.setX v) = mapResult (·.setX v) (·.setX v) (exec i s) := by
  simpa using exec_unseen (i := i) (g := (·.setX v)) (unseen_setX v) (fun _ _ => rfl)
    (fun base8 h => absurd h (hi base8)) s

end Sys2Proof.Machine
end

section
/-! What writes and reads the flags (R27) and the data registers (R23). -/

namespace Sys2Proof.Machine

/-- `SetZN` of the byte just loaded is all a load does to the flags (R130). -/
theorem exec_load_flags {i : Instr} {s t : State} (hi : isLoad i = true) (h : exec i s = .next t) :
    t.flags = flagsZN t.a s.flags := by
  obtain ⟨v, pc, cyc, rfl, -⟩ := exec_load_next hi h
  rfl

theorem exec_nonload_flags {i : Instr} {s t : State} (hi : isLoad i = false) (h : exec i s = .next t) :
    t.flags = s.flags := by
  obtain ⟨pc, sp, cyc, mem, rfl⟩ := exec_nonload_next hi h
  rfl

/-- The five flags no instruction writes (R27). -/
theorem exec_keeps_other_flags {i : Instr} {s t : State} (h : exec i s = .next t) :
    t.flags.carry = s.flags.carry ∧ t.flags.interruptDisable = s.flags.interruptDisable ∧
      t.flags.decimal = s.flags.decimal ∧ t.flags.brk = s.flags.brk ∧ t.flags.overflow = s.flags.overflow := by
  cases hi : isLoad i with
  | false => rw [exec_nonload_flags hi h]; exact ⟨rfl, rfl, rfl, rfl, rfl⟩
  | true => rw [exec_load_flags hi h]; exact ⟨rfl, rfl, rfl, rfl, rfl⟩

theorem exec_nonload_a {i : Instr} {s t : State} (hi : isLoad i = false) (h : exec i s = .next t) : t.a = s.a := by
  obtain ⟨pc, sp, cyc, mem, rfl⟩ := exec_nonload_next hi h
  rfl

/-- No instruction writes `x` or `y` (R23). -/
theorem exec_x_y {i : Instr} {s t : State} (h : exec i s = .next t) : t.x = s.x ∧ t.y = s.y := by
  cases hi : isLoad i with
  | false =>
    obtain ⟨pc, sp, cyc, mem, rfl⟩ := exec_nonload_next hi h
    exact ⟨rfl, rfl⟩
  | true =>
    obtain ⟨v, pc, cyc, rfl, -⟩ := exec_load_next hi h
    exact ⟨rfl, rfl⟩

/-- LDA zero page,X loads the cell of `base8 + x` (R133). -/
theorem exec_ldaZpx_a {base8 : Byte} {s t : State} (h : exec (.ldaZpx base8) s = .next t) :
    t.a = memRead s.mem (zeroPageXAddress base8 s.x) := by
  obtain ⟨v, pc, cyc, rfl, hv⟩ := exec_load_next rfl h
  exact hv base8 rfl

/-- Settles O44: what is written by the flags each completed instruction leaves, what is read by noninterference. -/
theorem flagsWrittenByLoadsReadByNothing : Obligations.FlagsWrittenByLoadsReadByNothing := by
  refine ⟨rfl, fun i s => ⟨fun t h => ?next, fun needed left frozen h f => ?fault⟩⟩
  case next =>
    obtain ⟨hcarry, hinterrupt, hdecimal, hbrk, hoverflow⟩ := exec_keeps_other_flags h
    refine ⟨hcarry, hinterrupt, hdecimal, hbrk, hoverflow, fun hi => exec_load_flagsDescribeA hi h, fun hi => ?_,
      fun f => (exec_setFlags i f s).trans (by rw [h]; rfl)⟩
    rw [exec_nonload_flags hi h]
    exact ⟨rfl, rfl⟩
  case fault => exact (exec_setFlags i f s).trans (by rw [h]; rfl)

/-- Settles O45: what is written by the two forms of a completed instruction, what is read by noninterference. -/
theorem dataRegistersHaveTheirOnlyUses : Obligations.DataRegistersHaveTheirOnlyUses := by
  refine ⟨rfl, rfl, rfl, fun i s t h => ?_⟩
  obtain ⟨hx, hy⟩ := exec_x_y h
  refine ⟨hx, hy, fun hi => exec_nonload_a hi h, fun v => ?y, fun v => ?a, fun v hi => ?x, fun base8 hi => ?index⟩
  case y => exact (exec_setY i v s).trans (by rw [h]; rfl)
  case a => exact (exec_setA i v s).trans (by rw [h]; rfl)
  case x => exact (exec_setX hi v s).trans (by rw [h]; rfl)
  case index => subst hi; exact exec_ldaZpx_a h

end Sys2Proof.Machine
end

section
/-! A word in memory (R54, R56), and what a JSR that pushes over its own target leads to (R68, decision D2). -/

namespace Sys2Proof.Machine

theorem memRead_memWriteWord_high {m : Memory} (addr v : Word) (h : Memory.wf m) :
    memRead (memWriteWord m addr v) (addr + 1#16) = highByte v :=
  memRead_memWrite_self _ _ (memWrite_wf _ _ h)

/-- The second byte's write never reaches back to the first, even where `addr + 1` wraps to 0 (D4). -/
theorem memRead_memWriteWord_low {m : Memory} (addr v : Word) (h : Memory.wf m) :
    memRead (memWriteWord m addr v) addr = lowByte v := by
  rw [memWriteWord, memRead_memWrite_ne _ (by bv_omega), memRead_memWrite_self _ _ h]

theorem decode_jsr (lo hi : Byte) (rest : List Byte) :
    decode (opJsr :: lo :: hi :: rest) = .ok (.jsr (joinWord lo hi), rest) := by
  have hlen : ¬ (lo :: hi :: rest).length + 1 < instrLength opJsr := by simp [instrLength]
  rw [decode, if_neg hlen]
  rfl

/-- Settles O19: the two writes of a word, the two fetches of one, and the operand bytes of JSR, low byte first in all
three. -/
theorem wordsAreLittleEndian : Obligations.WordsAreLittleEndian :=
  ⟨fun _ addr v h => ⟨memRead_memWriteWord_low addr v h, memRead_memWriteWord_high addr v h⟩,
    fun _ addr h => ⟨memRead_memWriteWord_low addr _ h, memRead_memWriteWord_high addr _ h⟩,
    fun _ h => ⟨_, fetchWord_of_le h⟩,
    decode_jsr⟩

/-- JSR with its six cycles (R140): the address of its last byte pushed, the stack pointer lowered by one, `pc` at the
target. -/
theorem exec_jsr_of_le {s : State} (target : Word) (h : 6 ≤ s.cyc) :
    exec (.jsr target) s =
      .next ((((s.setPc target).setSp (s.sp - 1#8)).setCyc (s.cyc - 6)).setMem
        (memWriteWord s.mem (pushAddress Config.stackBase (s.sp - 1#8)) (s.pc + 2#16))) := by
  have hret : s.pc + 1#16 + 1#16 + 1#16 - 1#16 = s.pc + 2#16 := by bv_omega
  have hcyc : s.cyc - 1 - 1 - 1 - 2 - 1 = s.cyc - 6 := by omega
  rw [exec, execJsr, jsrWithBase, fetchOpcode_of_pos (by omega), andThen_next,
    operandAbsolute_of_le _ (by simp; omega), andThen_next]
  dsimp only
  rw [writeWord_of_le _ _ (by simp; omega), andThen_next, spend_of_le (by simp; omega), andThen_next]
  simp [State.setPc, State.setSp, State.setCyc, State.setMem, hret, hcyc]

/-- With `STACK_BASE` at 0 a push address is the stack pointer itself (R62, decision D2). -/
theorem pushAddress_stackBase (sp : Byte) : pushAddress Config.stackBase sp = zext16 sp :=
  BitVec.zero_add _

/-- The instruction fetched where a word was just written: its first two bytes are the word's, its third is memory's as
it was before the write (R68). -/
theorem fetchInstr_at_written_word {s : State} {m : Memory} (v : Word) (h : Memory.wf m)
    (hmem : s.mem = memWriteWord m s.pc v) :
    fetchInstr s = decodeBytes (lowByte v) (highByte v) (memRead m (s.pc + 2#16)) := by
  rw [fetchInstr, hmem, memRead_memWriteWord_low _ _ h, memRead_memWriteWord_high _ _ h,
    memRead_memWriteWord_ne _ (by bv_omega) (by bv_omega)]

/-- Fetch coherence (R68): an iteration at a word just written runs the instruction that word encodes. -/
theorem step_at_written_word {s : State} {m : Memory} (v : Word) (hrun : s.status = .running) (hcyc : s.cyc ≠ 0)
    (h : Memory.wf m) (hmem : s.mem = memWriteWord m s.pc v) :
    step s = exec (decodeBytes (lowByte v) (highByte v) (memRead m (s.pc + 2#16))) s := by
  rw [step_iteration hrun hcyc, fetchInstr_at_written_word v h hmem]

/-- Settles O48: the JSR completes at the address it pushed to, with a cycle left for the next iteration, which fetches
what was pushed. -/
theorem pushedBytesAreTheNextInstruction : Obligations.PushedBytesAreTheNextInstruction := by
  intro s hrun hcyc hwf slot ret
  have hleft : s.cyc - 6 ≠ 0 := by omega
  have hpushed : memWriteWord s.mem (pushAddress Config.stackBase (s.sp - 1#8)) ret = memWriteWord s.mem slot ret := by
    rw [pushAddress_stackBase]; rfl
  exact ⟨_, exec_jsr_of_le slot hcyc.le, rfl, step_at_written_word ret hrun hleft hwf hpushed⟩

end Sys2Proof.Machine
end

section
/-! Dispatch (R111): what the decoder makes of each opcode byte of the map and of every other byte. -/

namespace Sys2Proof.Machine

@[simp] theorem decodeBytes_opLdaImm (b1 b2 : Byte) : decodeBytes opLdaImm b1 b2 = .ldaImm b1 := rfl

@[simp] theorem decodeBytes_opLdaZp (b1 b2 : Byte) : decodeBytes opLdaZp b1 b2 = .ldaZp b1 := rfl

@[simp] theorem decodeBytes_opLdaZpx (b1 b2 : Byte) : decodeBytes opLdaZpx b1 b2 = .ldaZpx b1 := rfl

@[simp] theorem decodeBytes_opJsr (b1 b2 : Byte) : decodeBytes opJsr b1 b2 = .jsr (joinWord b1 b2) := rfl

theorem decodeBytes_of_not_handled {op : Byte} (b1 b2 : Byte) (h : isHandled op = false) :
    decodeBytes op b1 b2 = .unhandled op := by
  obtain ⟨hImm, hZp, hZpx, hJsr⟩ := isHandled_eq_false.mp h
  rw [decodeBytes, if_neg hImm, if_neg hZp, if_neg hZpx, if_neg hJsr]

/-- Settles O26: an iteration runs what the bytes at `pc` decode to, and the decoder's five cases are the five clauses. -/
theorem dispatchByWholeOpcodeByte : Obligations.DispatchByWholeOpcodeByte := by
  intro s hrun hcyc op b1 b2
  have hstep : step s = exec (decodeBytes op b1 b2) s := step_iteration hrun hcyc
  refine ⟨fun (hop : op = opLdaImm) => ?ldaImm, fun (hop : op = opLdaZp) => ?ldaZp,
    fun (hop : op = opLdaZpx) => ?ldaZpx, fun (hop : op = opJsr) => ?jsr, fun hImm hZp hZpx hJsr => ?unhandled⟩
  case ldaImm => rw [hstep, hop, decodeBytes_opLdaImm]
  case ldaZp => rw [hstep, hop, decodeBytes_opLdaZp]
  case ldaZpx => rw [hstep, hop, decodeBytes_opLdaZpx]
  case jsr => rw [hstep, hop, decodeBytes_opJsr, joinWord]
  case unhandled =>
    rw [hstep, decodeBytes_of_not_handled b1 b2 (isHandled_eq_false.mpr ⟨hImm, hZp, hZpx, hJsr⟩)]

end Sys2Proof.Machine
end

section
/-! The three LDA forms with their cycles there (R131 to R133), and the flags each leaves (R130). -/

namespace Sys2Proof.Machine

/-- What `loadAccumulator` leaves past a two-byte instruction, in one record (R130): `pc` is moved a byte at a time. -/
theorem loadAccumulator_past_two_bytes (v : Byte) (cyc : Nat) (s : State) :
    loadAccumulator v ((s.setPc (s.pc + 1#16 + 1#16)).setCyc cyc) =
      { s with
        a := v
        flags := { s.flags with zero := decide (v = 0x00#8), negative := v.getLsbD 7 }
        pc := s.pc + 2#16
        cyc := cyc } := by
  rw [show s.pc + 1#16 + 1#16 = s.pc + 2#16 from BitVec.add_assoc ..]
  rfl

/-- Settles O31: the opcode fetch, the operand byte, the load of it. -/
theorem ldaImmediateLoadsItsOperand : Obligations.LdaImmediateLoadsItsOperand := fun imm8 s h =>
  load_eq_next.mpr ⟨by omega, _, operandImmediate_of_le imm8 (by simp; omega),
    loadAccumulator_past_two_bytes imm8 (s.cyc - 2) s⟩

/-- Settles O32: the opcode fetch, the operand byte, the load of the cell it names. -/
theorem ldaZeroPageLoadsTheCell : Obligations.LdaZeroPageLoadsTheCell := fun zp8 s h =>
  load_eq_next.mpr ⟨by omega, _, operandZeroPage_of_le zp8 (by simp; omega),
    loadAccumulator_past_two_bytes (memRead s.mem (zext16 zp8)) (s.cyc - 3) s⟩

/-- The 8-bit sum drops its carry: the effective address is the sum modulo 256 (R108). -/
theorem zeroPageXAddress_eq_ofNat_mod (base8 x : Byte) :
    zeroPageXAddress base8 x = BitVec.ofNat 16 ((base8.toNat + x.toNat) % 256) := by
  rw [← BitVec.toNat_add, BitVec.ofNat_toNat]
  rfl

/-- Settles O33: the opcode fetch, the operand byte, the cycle of the addition, the load of the cell at the sum. -/
theorem ldaZeroPageXLoadsTheWrappedCell : Obligations.LdaZeroPageXLoadsTheWrappedCell := by
  intro base8 s h ea
  have hea : zeroPageXAddress base8 s.x = ea := zeroPageXAddress_eq_ofNat_mod base8 s.x
  rw [← hea]
  exact load_eq_next.mpr ⟨by omega, _, operandZeroPageX_of_le base8 (by simp; omega),
    loadAccumulator_past_two_bytes (memRead s.mem (zeroPageXAddress base8 s.x)) (s.cyc - 4) s⟩

/-- Bit 7 says in which half of its range a byte lies. -/
theorem getLsbD_seven (v : Byte) : v.getLsbD 7 = decide (0x80#8 ≤ v) :=
  BitVec.msb_eq_decide v

theorem flagsZN_of_zero {v : Byte} (f : Flags) (h : v = 0x00#8) :
    (flagsZN v f).zero = true ∧ (flagsZN v f).negative = false := by
  subst h; exact ⟨rfl, rfl⟩

theorem flagsZN_of_low {v : Byte} (f : Flags) (hlo : 0x01#8 ≤ v) (hhi : v ≤ 0x7F#8) :
    (flagsZN v f).zero = false ∧ (flagsZN v f).negative = false := by
  rw [flagsZN_zero, flagsZN_negative, getLsbD_seven]
  exact ⟨decide_eq_false (by bv_omega), decide_eq_false (by bv_omega)⟩

theorem flagsZN_of_high {v : Byte} (f : Flags) (h : 0x80#8 ≤ v) :
    (flagsZN v f).zero = false ∧ (flagsZN v f).negative = true := by
  rw [flagsZN_zero, flagsZN_negative, getLsbD_seven]
  exact ⟨decide_eq_false (by bv_omega), decide_eq_true h⟩

theorem flagsZN_not_both (v : Byte) (f : Flags) : ¬ ((flagsZN v f).zero = true ∧ (flagsZN v f).negative = true) := by
  rintro ⟨hz, hn⟩
  obtain ⟨-, hn'⟩ := flagsZN_of_zero f (of_decide_eq_true hz)
  exact Bool.false_ne_true (hn'.symm.trans hn)

/-- Settles O40: a load leaves `SetZN` of the byte in `a`, whose two flags are those of that byte's range. -/
theorem loadsSetZeroAndNegative : Obligations.LoadsSetZeroAndNegative := by
  refine ⟨fun _ _ => rfl, fun i s t hi h => ?_⟩
  rw [exec_load_flags hi h]
  exact ⟨rfl, flagsZN_of_zero _, flagsZN_of_low _, flagsZN_of_high _, flagsZN_not_both _ _⟩

end Sys2Proof.Machine
end

section
/-! Where the budget cuts an LDA form (R131 to R133, decisions D6 and D13). Every form fetches its opcode and its one
operand byte; `k` is what its addressing mode does after that. -/

namespace Sys2Proof.Machine

/-- One cycle pays for the opcode alone: the fetch of the operand byte faults. -/
theorem load_cut_at_operand_byte {k : Byte × State → Result (Byte × State)} {s : State} (h : s.cyc = 1) :
    (andThen (fetchOpcode s) fun s1 =>
        andThen (andThen (fetchByte true none s1) k) fun r => .next (loadAccumulator r.1 r.2)) =
      .fault (.budgetUnderflow 1 0 { s with pc := s.pc + 1#16, cyc := 0, status := .halted }) := by
  rw [fetchOpcode_of_pos h.ge, andThen_next, fetchByte_unpaid _ _ (by simp [h]), andThen_fault, andThen_fault, h]
  rfl

/-- Past the operand byte, a fault of what is left of the addressing mode is the fault of the instruction. -/
theorem load_cut_past_operand_byte {k : Byte × State → Result (Byte × State)} {s : State} {f : Fault} (h : 2 ≤ s.cyc)
    (hk : k (memRead s.mem (s.pc + 1#16), (s.setCyc (s.cyc - 2)).setPc (s.pc + 2#16)) = .fault f) :
    (andThen (fetchOpcode s) fun s1 =>
        andThen (andThen (fetchByte true none s1) k) fun r => .next (loadAccumulator r.1 r.2)) = .fault f := by
  have hpc : s.pc + 1#16 + 1#16 = s.pc + 2#16 := BitVec.add_assoc ..
  rw [← hpc] at hk
  rw [fetchOpcode_of_pos (by omega), andThen_next, fetchByte_stream (by simp; omega), andThen_next]
  exact andThen_eq_fault.mpr (.inl hk)

/-- Settles O36: the cut falls on the operand byte. -/
theorem ldaImmediateCutByBudget : Obligations.LdaImmediateCutByBudget := fun _ _ h => load_cut_at_operand_byte h

/-- Settles O37: the cut falls on the operand byte or on the data read. -/
theorem ldaZeroPageCutByBudget : Obligations.LdaZeroPageCutByBudget := by
  refine fun zp8 s => ⟨load_cut_at_operand_byte, fun h => load_cut_past_operand_byte h.ge ?_⟩
  rw [fetchByte_unpaid _ _ (by simp [h]), h]
  rfl

/-- Settles O38: the cut falls on the operand byte, on the cycle of the addition or on the data read. -/
theorem ldaZeroPageXCutByBudget : Obligations.LdaZeroPageXCutByBudget := by
  refine fun base8 s => ⟨load_cut_at_operand_byte, ?_⟩
  rintro (h | h) <;> refine load_cut_past_operand_byte (by omega) ?_
  · rw [spend_of_lt (by simp [h]), andThen_fault, h]
    rfl
  · rw [spend_of_le (by simp [h]), andThen_next, fetchByte_unpaid _ _ (by simp [h]), h]
    rfl

end Sys2Proof.Machine
end

section
/-! JSR (R140): the word it pushes, where the budget cuts it (decisions D6, D13), and two of them in a row (R141). -/

namespace Sys2Proof.Machine

/-- Settles O34: the completed JSR, and the two reads of a word just written. -/
theorem jsrPushesAndJumps : Obligations.JsrPushesAndJumps := by
  intro target s h slot ret
  have hslot : pushAddress Config.stackBase (s.sp - 1#8) = slot := pushAddress_stackBase _
  refine ⟨?_, fun hwf => ⟨memRead_memWriteWord_low slot ret hwf, memRead_memWriteWord_high slot ret hwf⟩⟩
  rw [exec_jsr_of_le target h, hslot]
  rfl

/-- Absolute with no cycle left: the fetch of the low byte faults (R109). -/
theorem operandAbsolute_unpaid_low {s : State} (target : Word) (h : s.cyc = 0) :
    operandAbsolute target s = .fault (.budgetUnderflow 1 0 (s.setStatus .halted)) := by
  rw [operandAbsolute, fetchWord, fetchByte_unpaid _ _ h, andThen_fault, andThen_fault]

/-- Absolute with one cycle left: the low byte is fetched and the fetch of the high byte faults (R109). -/
theorem operandAbsolute_unpaid_high {s : State} (target : Word) (h : s.cyc = 1) :
    operandAbsolute target s =
      .fault (.budgetUnderflow 1 0 (((s.setCyc 0).setPc (s.pc + 1#16)).setStatus .halted)) := by
  rw [operandAbsolute, fetchWord, fetchByte_stream h.ge, andThen_next, fetchByte_unpaid _ _ (by simp [h]),
    andThen_fault, andThen_fault, h]

/-- A fault of JSR's operand fetch is the fault of the JSR. -/
theorem exec_jsr_cut_in_operand {target : Word} {s : State} {f : Fault} (h : 1 ≤ s.cyc)
    (hf : operandAbsolute target ((s.setCyc (s.cyc - 1)).setPc (s.pc + 1#16)) = .fault f) :
    exec (.jsr target) s = .fault f := by
  rw [exec, execJsr, jsrWithBase, fetchOpcode_of_pos h, andThen_next, hf, andThen_fault]

/-- JSR from its word write on: three cycles paid, `pc` past the instruction, `sp` lowered, nothing written yet. -/
theorem exec_jsr_past_operand {s : State} (target : Word) (h : 3 ≤ s.cyc) :
    exec (.jsr target) s =
      andThen (writeWord (zext16 (s.sp - 1#8)) (s.pc + 2#16)
        (((s.setCyc (s.cyc - 3)).setPc (s.pc + 3#16)).setSp (s.sp - 1#8))) fun s3 =>
          andThen (spend 1 s3) fun s4 => .next (s4.setPc target) := by
  have hpc : s.pc + 1#16 + 1#16 + 1#16 = s.pc + 3#16 := by bv_omega
  have hret : s.pc + 3#16 - 1#16 = s.pc + 2#16 := by bv_omega
  rw [exec, execJsr, jsrWithBase, fetchOpcode_of_pos (by omega), andThen_next,
    operandAbsolute_of_le _ (by simp; omega), andThen_next]
  simp only [setPc_pc, setPc_sp, setPc_cyc, setCyc_sp, setCyc_cyc, setSp_pc, setSp_sp, pushAddress_stackBase, hpc, hret]
  rfl

/-- JSR cut at its word write (R103): one check of two cycles, so neither byte is written. -/
theorem exec_jsr_cut_at_push {s : State} (target : Word) (hlo : 3 ≤ s.cyc) (hhi : s.cyc < 5) :
    exec (.jsr target) s =
      .fault (.budgetUnderflow 2 (s.cyc - 3)
        { s with pc := s.pc + 3#16, sp := s.sp - 1#8, cyc := s.cyc - 3, status := .halted }) := by
  rw [exec_jsr_past_operand target hlo, writeWord_of_lt _ _ (by simp; omega), andThen_fault]
  rfl

/-- JSR cut at its last cycle: the word is written and the jump is not made. -/
theorem exec_jsr_cut_at_jump {s : State} (target : Word) (h : s.cyc = 5) :
    exec (.jsr target) s =
      .fault (.budgetUnderflow 1 0
        { s with
          pc := s.pc + 3#16
          sp := s.sp - 1#8
          mem := memWriteWord s.mem (zext16 (s.sp - 1#8)) (s.pc + 2#16)
          cyc := 0
          status := .halted }) := by
  rw [exec_jsr_past_operand target (by omega), writeWord_of_le _ _ (by simp [h]), andThen_next,
    spend_of_lt (by simp [h]), andThen_fault, h]
  rfl

/-- Settles O39: the cut falls on an operand byte, on the word write or on the last cycle. -/
theorem jsrCutByBudget : Obligations.JsrCutByBudget := by
  refine fun target s => ⟨fun h => ?low, fun h => ?high, fun h => ?push0, fun h => ?push1, exec_jsr_cut_at_jump target⟩
  case low =>
    rw [exec_jsr_cut_in_operand h.ge (operandAbsolute_unpaid_low target (by simp [h])), h]
    rfl
  case high =>
    have hpc : s.pc + 1#16 + 1#16 = s.pc + 2#16 := BitVec.add_assoc ..
    rw [exec_jsr_cut_in_operand (by omega) (operandAbsolute_unpaid_high target (by simp [h])), ← hpc]
    rfl
  case push0 => rw [exec_jsr_cut_at_push target h.ge (by omega), h]
  case push1 => rw [exec_jsr_cut_at_push target (by omega) (by omega), h]

/-- A second push lies one cell below the first, so that its high byte falls on the first one's low byte, unless it
wraps `sp` (decision D5). -/
theorem push_slots_overlap {sp : Byte} (h : sp ≠ 0x01#8) : zext16 (sp - 2#8) + 1#16 = zext16 (sp - 1#8) := by
  unfold zext16
  bv_omega

/-- A second push never reaches the first one's high byte. -/
theorem push_keeps_high_byte (m : Memory) (sp : Byte) (v : Word) :
    memRead (memWriteWord m (zext16 (sp - 2#8)) v) (zext16 (sp - 1#8) + 1#16) =
      memRead m (zext16 (sp - 1#8) + 1#16) := by
  unfold zext16
  exact memRead_memWriteWord_ne v (by bv_omega) (by bv_omega)

/-- Settles O47: the memory is that of two word writes, the second one cell below the first, or, where `sp` wraps, at
the far end of the page. -/
theorem consecutiveCallsOverlapByOneByte : Obligations.ConsecutiveCallsOverlapByOneByte := by
  intro t1 t2 s hcyc hwf
  obtain ⟨hfirst, hpushed⟩ := jsrPushesAndJumps t1 s (by omega)
  obtain ⟨hret1Low, hret1High⟩ := hpushed hwf
  have hwf1 := memWriteWord_wf (zext16 (s.sp - 1#8)) (s.pc + 2#16) hwf
  have hsp : s.sp - 1#8 - 1#8 = s.sp - 2#8 := by bv_omega
  refine ⟨_, _, hfirst, (jsrPushesAndJumps t2 _ (by simp; omega)).1, rfl, hsp, ?_⟩
  dsimp only
  rw [hsp]
  have hret2High := memRead_memWriteWord_high (zext16 (s.sp - 2#8)) (t1 + 2#16) hwf1
  refine ⟨memRead_memWriteWord_low _ _ hwf1, hret2High, (push_keeps_high_byte _ _ _).trans hret1High,
    fun hne => ?overlap, fun hwrap => ?apart⟩
  case overlap => rwa [push_slots_overlap hne] at hret2High
  case apart =>
    rw [hwrap] at hret1Low ⊢
    exact (memRead_memWriteWord_ne _ (by decide) (by decide)).trans hret1Low

end Sys2Proof.Machine
end

section
/-! The unhandled opcodes (R150): what is fetched at such a byte, what one performs, and its report (R164). -/

namespace Sys2Proof.Machine

theorem fetchInstr_of_not_handled {s : State} (h : isHandled (memRead s.mem s.pc) = false) :
    fetchInstr s = .unhandled (memRead s.mem s.pc) :=
  decodeBytes_of_not_handled _ _ h

/-- An unhandled opcode is the opcode fetch of its iteration and nothing else. -/
theorem exec_unhandled_of_pos (op : Byte) {s : State} (h : 1 ≤ s.cyc) :
    exec (.unhandled op) s = .next { s with pc := s.pc + 1#16, cyc := s.cyc - 1 } :=
  fetchOpcode_of_pos h

/-- While an iteration is performed, the report is that of the instruction at `pc`. -/
theorem reportAt_iteration {s : State} (hrun : s.status = .running) (hcyc : s.cyc ≠ 0) :
    reportAt s = reportOf (fetchInstr s) s := by
  simp only [reportAt, hrun, if_neg hcyc]

/-- Settles O35: the byte at `pc` decodes to the unhandled opcode itself, so the iteration is its one paid fetch. -/
theorem unhandledAdvancesOneByteOneCycle : Obligations.UnhandledAdvancesOneByteOneCycle := by
  intro op s hImm hZp hZpx hJsr hcyc
  have hexec := exec_unhandled_of_pos op hcyc
  refine ⟨hexec, fun hrun hop => ?_⟩
  subst hop
  have hpaid : s.cyc ≠ 0 := Nat.one_le_iff_ne_zero.mp hcyc
  have hfetch := fetchInstr_of_not_handled (isHandled_eq_false.mpr ⟨hImm, hZp, hZpx, hJsr⟩)
  exact ⟨by rw [step_iteration hrun hpaid, hfetch, hexec], by rw [reportAt_iteration hrun hpaid, hfetch, reportOf]⟩

end Sys2Proof.Machine
end

section
/-! The `reset` command (R191): when it is accepted, and what memory reads as once no cell is listed. -/

namespace Sys2Proof.Machine

/-- After `init` every cell holds the unlisted byte (R55, R71). -/
@[simp] theorem memRead_nil (addr : Word) : memRead [] addr = Config.unlistedByte := rfl

/-- A move allowed only while the core is stopped is accepted there. -/
theorem whileStopped_of_not_running {α : Type} {s : State} (v : α) (h : s.status ≠ .running) :
    whileStopped s v = .next v := by
  rcases whileStopped_cases s v with ⟨-, haccepted⟩ | ⟨hrun, -⟩
  · exact haccepted
  · exact absurd hrun h

/-- `reset` is accepted in every status but RUNNING (R193). -/
theorem command_reset_of_not_running {s : State} (h : s.status ≠ .running) :
    command .reset s = .next (resetEffect s) :=
  whileStopped_of_not_running _ h

/-- Settles O1: the command answers the reset state with the old `cyc`, so every other field is a reset value
and no cell is listed. -/
theorem resetCommandEstablishesState : Obligations.ResetCommandEstablishesState := by
  intro s hstopped
  have haccepted := command_reset_of_not_running hstopped
  have hcleared : ∀ addr, memRead (resetEffect s).mem addr = 0x00#8 := memRead_nil
  exact ⟨resetEffect s, haccepted, rfl, rfl, rfl, rfl, rfl, rfl, rfl, rfl, rfl, rfl, rfl, rfl, hcleared, rfl, rfl, rfl⟩

end Sys2Proof.Machine
end

section
/-! Decoding and encoding (R80 to R87): what the decoder makes of a list long enough for its opcode, and that encoding
and decoding undo each other. -/

namespace Sys2Proof

open Machine

@[simp] theorem instrLength_opLdaImm : instrLength opLdaImm = 2 := rfl
@[simp] theorem instrLength_opLdaZp : instrLength opLdaZp = 2 := rfl
@[simp] theorem instrLength_opLdaZpx : instrLength opLdaZpx = 2 := rfl
@[simp] theorem instrLength_opJsr : instrLength opJsr = 3 := rfl

theorem instrLength_of_not_handled {op : Byte} (h : isHandled op = false) : instrLength op = 1 := by
  obtain ⟨hImm, hZp, hZpx, hJsr⟩ := isHandled_eq_false.mp h
  rw [instrLength, if_neg hJsr, if_neg (by simp [hImm, hZp, hZpx])]

theorem instrLength_le_three (op : Byte) : instrLength op ≤ 3 := by
  unfold instrLength
  split_ifs <;> decide

/-- A byte is one of the four opcodes of the map or an unhandled opcode (R85, R86). -/
theorem opcode_cases (op : Byte) :
    op = opLdaImm ∨ op = opLdaZp ∨ op = opLdaZpx ∨ op = opJsr ∨ isHandled op = false := by
  simp only [isHandled_eq_false]
  tauto

theorem wellFormed_unhandled {op : Byte} : WellFormed (.unhandled op) ↔ isHandled op = false := by
  simp [WellFormed, Instr.wellFormed]

/-- Whatever is decoded is an instruction of the hardware. -/
theorem wellFormed_decodeBytes (op b1 b2 : Byte) : WellFormed (decodeBytes op b1 b2) := by
  rcases opcode_cases op with rfl | rfl | rfl | rfl | h
  · rfl
  · rfl
  · rfl
  · rfl
  · rw [decodeBytes_of_not_handled _ _ h]
    exact wellFormed_unhandled.mpr h

/-- Byte 0 of what is decoded is the opcode it was decoded from. -/
@[simp] theorem opcodeOf_decodeBytes (op b1 b2 : Byte) : opcodeOf (decodeBytes op b1 b2) = op := by
  rcases opcode_cases op with rfl | rfl | rfl | rfl | h
  · rfl
  · rfl
  · rfl
  · rfl
  · rw [decodeBytes_of_not_handled _ _ h, opcodeOf]

@[simp] theorem decode_nil : decode [] = .error .noOpcode := rfl

/-- An opcode byte with all the bytes of its length decodes (R87). -/
theorem decode_of_le {op : Byte} {rest : List Byte} (h : instrLength op ≤ rest.length + 1) :
    decode (op :: rest) =
      .ok (decodeBytes op (rest.getD 0 0#8) (rest.getD 1 0#8), rest.drop (instrLength op - 1)) :=
  if_neg (Nat.not_lt.mpr h)

/-- With fewer it is refused (R87). -/
theorem decode_of_lt {op : Byte} {rest : List Byte} (h : rest.length + 1 < instrLength op) :
    decode (op :: rest) = .error (.missingOperand op) :=
  if_pos h

/-- Settles O22: each format's bytes are enough for its opcode, and the decoder takes them in the encoder's order. -/
theorem decodeOfEncodeIsTheInstruction : Obligations.DecodeOfEncodeIsTheInstruction := by
  intro i rest hwf
  cases i with
  | ldaImm imm8 => exact decode_of_le (op := opLdaImm) (rest := imm8 :: rest) (by simp)
  | ldaZp zp8 => exact decode_of_le (op := opLdaZp) (rest := zp8 :: rest) (by simp)
  | ldaZpx base8 => exact decode_of_le (op := opLdaZpx) (rest := base8 :: rest) (by simp)
  | jsr target =>
    rw [← joinWord_low_high target]
    simpa [encode] using decode_jsr (lowByte target) (highByte target) rest
  | unhandled op =>
    have hop := wellFormed_unhandled.mp hwf
    have hlen := instrLength_of_not_handled hop
    rw [encode, List.singleton_append, decode_of_le (by omega), decodeBytes_of_not_handled _ _ hop, hlen]
    rfl

/-- The encoding of what was decoded is the bytes the decoder took (R81, R83). -/
theorem encode_decodeBytes_append {op : Byte} {rest : List Byte} (h : instrLength op ≤ rest.length + 1) :
    encode (decodeBytes op (rest.getD 0 0#8) (rest.getD 1 0#8)) ++ rest.drop (instrLength op - 1) = op :: rest := by
  have two_bytes (hlen : 2 ≤ rest.length + 1) : rest.getD 0 0#8 :: rest.drop 1 = rest := by
    cases rest with
    | nil => simp at hlen
    | cons b1 rest => rfl
  rcases opcode_cases op with rfl | rfl | rfl | rfl | hop
  · exact congrArg (opLdaImm :: ·) (two_bytes h)
  · exact congrArg (opLdaZp :: ·) (two_bytes h)
  · exact congrArg (opLdaZpx :: ·) (two_bytes h)
  · match rest, h with
    | lo :: hi :: rest, _ => simp [encode]
  · rw [decodeBytes_of_not_handled _ _ hop, instrLength_of_not_handled hop]
    rfl

/-- Settles O23: only a list with all the bytes of its opcode's length decodes, and those bytes are the encoding. -/
theorem encodeOfDecodeIsTheBytes : Obligations.EncodeOfDecodeIsTheBytes := by
  intro bs rest i h
  cases bs with
  | nil => cases h
  | cons op tail =>
    rcases Nat.lt_or_ge (tail.length + 1) (instrLength op) with hlen | hlen
    · rw [decode_of_lt hlen] at h
      cases h
    · rw [decode_of_le hlen] at h
      cases h
      exact ⟨wellFormed_decodeBytes _ _ _, encode_decodeBytes_append hlen⟩

/-- Settles O24: a list is refused when it is empty or shorter than its opcode's length. -/
theorem decoderRefusesOnlyMissingBytes : Obligations.DecoderRefusesOnlyMissingBytes := by
  refine ⟨fun e => ?_, fun op rest => ⟨fun h => ⟨_, _, decode_of_le h⟩, decode_of_lt⟩⟩
  simp [eq_comm]

/-- An instruction's encoding has the length of its opcode byte (R83). -/
theorem encode_length {i : Instr} (h : WellFormed i) : (encode i).length = instrLength (opcodeOf i) := by
  cases i with
  | ldaImm imm8 => exact Laws.EncodeLength.ldaImm imm8 h
  | ldaZp zp8 => exact Laws.EncodeLength.ldaZp zp8 h
  | ldaZpx base8 => exact Laws.EncodeLength.ldaZpx base8 h
  | jsr target => exact Laws.EncodeLength.jsr target h
  | unhandled op => exact Laws.EncodeLength.unhandled op h

/-- Settles O25: the bytes taken are the encoding, whose length is that of its opcode byte. -/
theorem instructionLengthByOpcode : Obligations.InstructionLengthByOpcode := by
  intro i rest bs h
  obtain ⟨hwf, rfl⟩ := encodeOfDecodeIsTheBytes bs rest i h
  refine ⟨List.length_append.symm, ?_⟩
  rw [encode_length hwf, instrLength]
  simp only [opJsr, opLdaImm, opLdaZp, opLdaZpx, or_left_comm]

/-- Settles O21: the five samples, by evaluation of the decoder. -/
theorem sampleWordsDecode : Obligations.SampleWordsDecode := ⟨rfl, rfl, rfl, rfl, rfl⟩

/-- Settles O27: three bytes are enough for every opcode, so they decode to the instruction the step fetches. -/
theorem stepRunsDecodedInstruction : Obligations.StepRunsDecodedInstruction := by
  intro s i rest hrun hcyc h
  rw [decode_of_le (instrLength_le_three _)] at h
  cases h
  exact step_iteration hrun hcyc

/-- The instruction whose encoding stands at `pc` is the one fetched there. -/
theorem fetchInstr_of_encode {s : State} {i : Instr} (hwf : WellFormed i)
    (h : ∀ k b, (encode i)[k]? = some b → memRead s.mem (s.pc + BitVec.ofNat 16 k) = b) : fetchInstr s = i := by
  have byte0 {op : Byte} (h0 : (encode i)[0]? = some op) : memRead s.mem s.pc = op := by
    simpa using h 0 op h0
  unfold fetchInstr
  cases i with
  | ldaImm imm8 => rw [byte0 rfl, h 1 imm8 rfl, decodeBytes_opLdaImm]
  | ldaZp zp8 => rw [byte0 rfl, h 1 zp8 rfl, decodeBytes_opLdaZp]
  | ldaZpx base8 => rw [byte0 rfl, h 1 base8 rfl, decodeBytes_opLdaZpx]
  | jsr target =>
    rw [byte0 rfl, h 1 (lowByte target) rfl, h 2 (highByte target) rfl, decodeBytes_opJsr, joinWord_low_high]
  | unhandled op => rw [byte0 rfl, decodeBytes_of_not_handled _ _ (wellFormed_unhandled.mp hwf)]

/-- Settles O28: a step performs the instruction it fetches. -/
theorem stepRunsEncodedInstruction : Obligations.StepRunsEncodedInstruction := by
  intro s i hrun hcyc hwf h
  rw [step_iteration hrun hcyc, fetchInstr_of_encode hwf h]

end Sys2Proof
end

section
/-! The canonical form of memory (log entry 12): it lists exactly the cells that do not hold the unlisted byte. -/

namespace Sys2Proof.Machine

/-- What a memory of canonical form lists is what it reads, but for the unlisted byte. -/
theorem mem_iff_readCell {m : Memory} (h : Memory.wf m) (c : Host.Cell) :
    c ∈ m ↔ c.2 ≠ Config.unlistedByte ∧ readCell m c.1 = c.2 := by
  induction m with
  | nil => simp [readCell, eq_comm]
  | cons d m ih =>
    obtain ⟨k, v⟩ := d
    have hbelow : ∀ e ∈ m, k < e.1 := fun e he => memWf_head_lt h he
    have hv : v ≠ Config.unlistedByte := ((memWf_iff.mp h).2 _ (List.mem_cons_self ..)).2
    rw [List.mem_cons, ih (memWf_tail h), readCell]
    obtain ⟨n, w⟩ := c
    by_cases hn : k = n
    · subst hn
      simp only [Prod.mk.injEq, true_and, if_true, readCell_below hbelow]
      constructor
      · rintro (rfl | ⟨hw, hw'⟩)
        · exact ⟨hv, rfl⟩
        · exact absurd hw'.symm hw
      · rintro ⟨-, rfl⟩
        exact .inl rfl
    · simp [hn, Ne.symm hn]

/-- No cell past the address space is listed. -/
theorem readCell_past_memory {m : Memory} (h : Memory.wf m) {n : Nat} (hn : Config.memSize ≤ n) :
    readCell m n = Config.unlistedByte := by
  by_contra hread
  have hlisted := (mem_iff_readCell h (n, readCell m n)).mpr ⟨hread, rfl⟩
  exact Nat.not_lt.mpr hn ((memWf_iff.mp h).2 _ hlisted).1

theorem readCell_eq_of_memRead_eq {m n : Memory} (hm : Memory.wf m) (hn : Memory.wf n)
    (h : ∀ addr : Word, memRead m addr = memRead n addr) (k : Nat) : readCell m k = readCell n k := by
  rcases Nat.lt_or_ge k Config.memSize with hk | hk
  · have haddr : (BitVec.ofNat 16 k).toNat = k := Nat.mod_eq_of_lt hk
    simpa [memRead, haddr] using h (BitVec.ofNat 16 k)
  · rw [readCell_past_memory hm hk, readCell_past_memory hn hk]

/-- Settles O20: both memories list the cells that read other than the unlisted byte, in rising order. -/
theorem canonicalMemoriesReadingAlikeAreEqual : Obligations.CanonicalMemoriesReadingAlikeAreEqual := by
  intro m n hm hn h
  have hlisted : ∀ c, c ∈ m ↔ c ∈ n := fun c => by
    rw [mem_iff_readCell hm, mem_iff_readCell hn, readCell_eq_of_memRead_eq hm hn h]
  have : Std.Irrefl fun c d : Host.Cell => c.1 < d.1 := ⟨fun _ => Nat.lt_irrefl _⟩
  have : Std.Antisymm fun c d : Host.Cell => c.1 < d.1 := ⟨fun _ _ hcd hdc => absurd hdc hcd.asymm⟩
  exact (memWf_iff.mp hm).1.eq_of_mem_iff (memWf_iff.mp hn).1 hlisted

/-- Settles O18: a cell written is read back and no other cell is touched. -/
theorem byteWriteChangesOneCell : Obligations.ByteWriteChangesOneCell := fun _ addr v h =>
  ⟨memRead_memWrite_self addr v h, fun _ hb => memRead_memWrite_ne v hb, memWrite_wf addr v h⟩

end Sys2Proof.Machine
end

section
/-! The primitives (R100, R101, R103). -/

namespace Sys2Proof.Machine

/-- Settles O15: the two sides of the check. -/
theorem spendChecksBeforeItDeducts : Obligations.SpendChecksBeforeItDeducts := fun _ _ => ⟨spend_of_le, spend_of_lt⟩

/-- `FetchByte` in any combination with a cycle left. -/
theorem fetchByte_of_pos {s : State} (advance : Bool) (addr? : Option Word) (h : 1 ≤ s.cyc) :
    fetchByte advance addr? s =
      .next (memRead s.mem (addr?.getD s.pc),
        if advance then (s.setCyc (s.cyc - 1)).setPc (s.pc + 1#16) else s.setCyc (s.cyc - 1)) := by
  rw [fetchByte, spend_of_le h]
  rfl

/-- Settles O16: the four paid combinations, and the one fault of them all. -/
theorem fetchByteInEveryCombination : Obligations.FetchByteInEveryCombination := fun _ ea =>
  ⟨fun h => ⟨fetchByte_of_pos true none h, fetchByte_of_pos false none h, fetchByte_of_pos true (some ea) h,
    fetchByte_of_pos false (some ea) h⟩, fun h advance addr? => fetchByte_unpaid advance addr? h⟩

/-- Settles O17: the two sides of the one check for both bytes. -/
theorem writeWordWholeOrNotAtAll : Obligations.WriteWordWholeOrNotAtAll := fun _ addr v =>
  ⟨writeWord_of_le addr v, writeWord_of_lt addr v⟩

end Sys2Proof.Machine
end

section
/-! What an iteration does, said once for all instructions: with its cost in the budget it completes with its whole
effect, with less it is cut short and the fault freezes part of that effect. -/

namespace Sys2Proof.Machine

/-- The cycles an instruction costs in all (R210), by its form. -/
def costOf : Instr → Nat
  | .ldaImm _ => 2
  | .ldaZp _ => 3
  | .ldaZpx _ => 4
  | .jsr _ => 6
  | .unhandled _ => 1

/-- The effect of a completed instruction (R131 to R133, R140, R150) on everything but `cyc`. -/
def effect (i : Instr) (s : State) : State :=
  match i with
  | .ldaImm imm8 => loadAccumulator imm8 (s.setPc (s.pc + 2#16))
  | .ldaZp zp8 => loadAccumulator (memRead s.mem (zext16 zp8)) (s.setPc (s.pc + 2#16))
  | .ldaZpx base8 => loadAccumulator (memRead s.mem (zeroPageXAddress base8 s.x)) (s.setPc (s.pc + 2#16))
  | .jsr target =>
    ((s.setPc target).setSp (s.sp - 1#8)).setMem (memWriteWord s.mem (zext16 (s.sp - 1#8)) (s.pc + 2#16))
  | .unhandled _ => s.setPc (s.pc + 1#16)

theorem costOf_pos (i : Instr) : 1 ≤ costOf i := by
  cases i <;> simp [costOf]

@[simp] theorem effect_status (i : Instr) (s : State) : (effect i s).status = s.status := by
  cases i <;> rfl

/-- No instruction looks at the budget or the status. -/
theorem effect_setCyc (i : Instr) (s : State) (n : Nat) : effect i (s.setCyc n) = (effect i s).setCyc n := by
  cases i <;> rfl

theorem effect_setStatus (i : Instr) (s : State) (r : RunStatus) :
    effect i (s.setStatus r) = (effect i s).setStatus r := by
  cases i <;> rfl

/-- What instruction `i`, performed from `s`, can leave as memory: memory as it was or, if `i` is JSR, with the word of
its push written (R58, R140, decision D2). -/
def MemLeftBy (i : Instr) (s : State) (m : Memory) : Prop :=
  m = s.mem ∨ isCall i = true ∧ m = memWriteWord s.mem (zext16 (s.sp - 1#8)) (s.pc + 2#16)

theorem MemLeftBy.wf {i : Instr} {s : State} {m : Memory} (hm : MemLeftBy i s m) (h : Memory.wf s.mem) :
    Memory.wf m := by
  obtain rfl | ⟨-, rfl⟩ := hm
  · exact h
  · exact memWriteWord_wf _ _ h

theorem MemLeftBy.eq_of_not_call {i : Instr} {s : State} {m : Memory} (hm : MemLeftBy i s m)
    (hi : isCall i = false) : m = s.mem := by
  obtain hm | ⟨hcall, -⟩ := hm
  · exact hm
  · exact absurd (hi.symm.trans hcall) Bool.false_ne_true

/-- A push lies at or below `0x0100` (decision D2). -/
theorem MemLeftBy.memRead_above {i : Instr} {s : State} {m : Memory} (hm : MemLeftBy i s m) {b : Word}
    (hb : 0x0100 < b.toNat) : memRead m b = memRead s.mem b := by
  obtain rfl | ⟨-, rfl⟩ := hm
  · rfl
  · unfold zext16
    exact memRead_memWriteWord_ne _ (by bv_omega) (by bv_omega)

theorem effect_mem (i : Instr) (s : State) : MemLeftBy i s (effect i s).mem := by
  cases i with
  | jsr target => exact .inr ⟨rfl, rfl⟩
  | ldaImm imm8 => exact .inl rfl
  | ldaZp zp8 => exact .inl rfl
  | ldaZpx base8 => exact .inl rfl
  | unhandled op => exact .inl rfl

/-- With its cost in the budget an instruction completes: its effect, and `cyc` lowered by its cost. -/
theorem exec_of_paid {i : Instr} {s : State} (h : costOf i ≤ s.cyc) :
    exec i s = .next ((effect i s).setCyc (s.cyc - costOf i)) := by
  cases i with
  | ldaImm imm8 => exact ldaImmediateLoadsItsOperand imm8 s h
  | ldaZp zp8 => exact ldaZeroPageLoadsTheCell zp8 s h
  | ldaZpx base8 =>
    rw [ldaZeroPageXLoadsTheWrappedCell base8 s h, ← zeroPageXAddress_eq_ofNat_mod]
    rfl
  | jsr target => exact (jsrPushesAndJumps target s h).1
  | unhandled op => exact exec_unhandled_of_pos op h

/-- What a `BudgetUnderflow(needed, left)` of instruction `i`, met in `s`, leaves frozen (R161). -/
structure CutShort (i : Instr) (s : State) (needed left : Nat) (frozen : State) : Prop where
  status : frozen.status = .halted
  cyc : frozen.cyc = left
  short : left < needed
  needed : needed = 1 ∨ needed = 2
  left_le : left ≤ s.cyc
  a : frozen.a = s.a
  x : frozen.x = s.x
  y : frozen.y = s.y
  flags : frozen.flags = s.flags
  sp : frozen.sp = s.sp ∨ isCall i = true ∧ frozen.sp = s.sp - 1#8
  mem : MemLeftBy i s frozen.mem

/-- A cut at a fetch or an internal cycle has moved `pc` alone. -/
theorem cutShort_at (i : Instr) (s : State) (pc : Word) :
    CutShort i s 1 0 { s with pc := pc, cyc := 0, status := .halted } :=
  ⟨rfl, rfl, Nat.one_pos, .inl rfl, Nat.zero_le _, rfl, rfl, rfl, rfl, .inl rfl, .inl rfl⟩

/-- A JSR cut at its word write has moved `pc` and lowered `sp`. -/
theorem cutShort_at_push (target : Word) {s : State} {left : Nat} (pc : Word) (hleft : left < 2)
    (hcyc : left ≤ s.cyc) :
    CutShort (.jsr target) s 2 left { s with pc := pc, sp := s.sp - 1#8, cyc := left, status := .halted } :=
  ⟨rfl, rfl, hleft, .inr rfl, hcyc, rfl, rfl, rfl, rfl, .inr ⟨rfl, rfl⟩, .inl rfl⟩

/-- A JSR cut at its last cycle has written the word too. -/
theorem cutShort_at_jump (target : Word) (s : State) (pc : Word) :
    CutShort (.jsr target) s 1 0
      { s with
        pc := pc
        sp := s.sp - 1#8
        mem := memWriteWord s.mem (zext16 (s.sp - 1#8)) (s.pc + 2#16)
        cyc := 0
        status := .halted } :=
  ⟨rfl, rfl, Nat.one_pos, .inl rfl, Nat.zero_le _, rfl, rfl, rfl, rfl, .inr ⟨rfl, rfl⟩, .inr ⟨rfl, rfl⟩⟩

/-- With no cycle at all the cut falls on the opcode fetch (log entry 1: no step comes to this). -/
theorem exec_at_zero (i : Instr) {s : State} (h : s.cyc = 0) :
    exec i s = .fault (.budgetUnderflow 1 0 { s with pc := s.pc, cyc := 0, status := .halted }) := by
  have hfetch : fetchOpcode s =
      .fault (.budgetUnderflow 1 0 { s with pc := s.pc, cyc := 0, status := .halted }) := by
    rw [fetchOpcode, fetchByte_unpaid _ _ h, andThen_fault, ← h]
    rfl
  cases i with
  | unhandled op => exact hfetch
  | ldaImm imm8 => rw [exec, execLdaImm, hfetch, andThen_fault]
  | ldaZp zp8 => rw [exec, execLdaZp, hfetch, andThen_fault]
  | ldaZpx base8 => rw [exec, execLdaZpx, hfetch, andThen_fault]
  | jsr target => rw [exec, execJsr, jsrWithBase, hfetch, andThen_fault]

/-- With less than its cost in the budget an instruction is cut short. -/
theorem exec_of_unpaid {i : Instr} {s : State} (h : s.cyc < costOf i) :
    ∃ needed left frozen, exec i s = .fault (.budgetUnderflow needed left frozen) ∧
      CutShort i s needed left frozen := by
  rcases Nat.eq_zero_or_pos s.cyc with h0 | h0
  · exact ⟨_, _, _, exec_at_zero i h0, cutShort_at _ _ _⟩
  cases i with
  | ldaImm imm8 =>
    have hcyc : s.cyc = 1 := by simp only [costOf] at h; omega
    exact ⟨_, _, _, ldaImmediateCutByBudget imm8 s hcyc, cutShort_at _ _ _⟩
  | ldaZp zp8 =>
    obtain ⟨cut1, cut2⟩ := ldaZeroPageCutByBudget zp8 s
    have hcyc : s.cyc = 1 ∨ s.cyc = 2 := by simp only [costOf] at h; omega
    rcases hcyc with hcyc | hcyc
    · exact ⟨_, _, _, cut1 hcyc, cutShort_at _ _ _⟩
    · exact ⟨_, _, _, cut2 hcyc, cutShort_at _ _ _⟩
  | ldaZpx base8 =>
    obtain ⟨cut1, cut23⟩ := ldaZeroPageXCutByBudget base8 s
    have hcyc : s.cyc = 1 ∨ s.cyc = 2 ∨ s.cyc = 3 := by simp only [costOf] at h; omega
    rcases hcyc with hcyc | hcyc
    · exact ⟨_, _, _, cut1 hcyc, cutShort_at _ _ _⟩
    · exact ⟨_, _, _, cut23 hcyc, cutShort_at _ _ _⟩
  | jsr target =>
    obtain ⟨cut1, cut2, cut3, cut4, cut5⟩ := jsrCutByBudget target s
    have hcyc : s.cyc = 1 ∨ s.cyc = 2 ∨ s.cyc = 3 ∨ s.cyc = 4 ∨ s.cyc = 5 := by simp only [costOf] at h; omega
    rcases hcyc with hcyc | hcyc | hcyc | hcyc | hcyc
    · exact ⟨_, _, _, cut1 hcyc, cutShort_at _ _ _⟩
    · exact ⟨_, _, _, cut2 hcyc, cutShort_at _ _ _⟩
    · exact ⟨_, _, _, cut3 hcyc, cutShort_at_push _ _ (by omega) (by omega)⟩
    · exact ⟨_, _, _, cut4 hcyc, cutShort_at_push _ _ (by omega) (by omega)⟩
    · exact ⟨_, _, _, cut5 hcyc, cutShort_at_jump _ _ _⟩
  | unhandled op => simp only [costOf] at h; omega

/-- A completed instruction was paid for and has its whole effect. -/
theorem exec_eq_next {i : Instr} {s t : State} :
    exec i s = .next t ↔ costOf i ≤ s.cyc ∧ t = (effect i s).setCyc (s.cyc - costOf i) := by
  rcases Nat.lt_or_ge s.cyc (costOf i) with hc | hc
  · obtain ⟨needed, left, frozen, h, -⟩ := exec_of_unpaid hc
    simp [h, Nat.not_le.mpr hc]
  · simp [exec_of_paid hc, hc, eq_comm]

/-- An instruction that faults was not paid for and is cut short. -/
theorem exec_fault_cutShort {i : Instr} {s frozen : State} {needed left : Nat}
    (h : exec i s = .fault (.budgetUnderflow needed left frozen)) : CutShort i s needed left frozen := by
  rcases Nat.lt_or_ge s.cyc (costOf i) with hc | hc
  · obtain ⟨needed', left', frozen', h', hcut⟩ := exec_of_unpaid hc
    cases h'.symm.trans h
    exact hcut
  · cases (exec_of_paid hc).symm.trans h

/-- The cost by form is the table's cost of the opcode byte (R85, R210). -/
theorem costOf_eq_cycleCost {i : Instr} (h : WellFormed i) : costOf i = cycleCost (opcodeOf i) := by
  cases i with
  | ldaImm imm8 => rfl
  | ldaZp zp8 => rfl
  | ldaZpx base8 => rfl
  | jsr target => rfl
  | unhandled op =>
    obtain ⟨hImm, hZp, hZpx, hJsr⟩ := isHandled_eq_false.mp (wellFormed_unhandled.mp h)
    rw [opcodeOf, cycleCost, if_neg hImm, if_neg hZp, if_neg hZpx, if_neg hJsr, costOf]

theorem costOf_fetchInstr (s : State) : costOf (fetchInstr s) = cycleCost (memRead s.mem s.pc) := by
  rw [fetchInstr, costOf_eq_cycleCost (wellFormed_decodeBytes _ _ _), opcodeOf_decodeBytes]

end Sys2Proof.Machine
end

section
/-! The frames of the instructions (R24, R130 to R133, R140, R150). -/

namespace Sys2Proof.Machine

/-- Settles O41: a completed load moves `pc` and `cyc` and ends with `a <- v; SetZN(a)`. -/
theorem loadFrame : Obligations.LoadFrame := by
  intro i s t hi h
  obtain ⟨v, pc, cyc, rfl, -⟩ := exec_load_next hi h
  exact ⟨rfl, rfl, rfl, rfl, rfl, rfl, rfl, rfl, rfl, fun _ => rfl⟩

/-- Settles O42: a completed JSR has moved `pc`, `sp` and `cyc` and written the one word. -/
theorem jsrFrame : Obligations.JsrFrame := by
  intro target s t h
  obtain ⟨-, rfl⟩ := exec_eq_next.mp h
  refine ⟨rfl, rfl, rfl, rfl, rfl, fun addr haddr b hlo hhi => ?_⟩
  rw [pushAddress_stackBase] at haddr
  subst haddr
  exact memRead_memWriteWord_ne _ hlo hhi

/-- Settles O43: an unhandled opcode has moved `pc` and `cyc`. -/
theorem unhandledFrame : Obligations.UnhandledFrame := by
  intro op s t h
  obtain ⟨-, rfl⟩ := exec_eq_next.mp h
  exact ⟨rfl, rfl, rfl, rfl, rfl, rfl, fun _ => rfl⟩

/-- Settles O46: the push of JSR is the only effect on `sp`. -/
theorem stackPointerMovedOnlyByJsr : Obligations.StackPointerMovedOnlyByJsr := by
  intro i s t h
  obtain ⟨-, rfl⟩ := exec_eq_next.mp h
  cases i with
  | jsr target =>
    have hsp : (s.sp - 1#8).toNat = (s.sp.toNat + 255) % 256 := by rw [BitVec.toNat_sub, Nat.add_comm]; rfl
    exact ⟨fun _ => hsp, nofun⟩
  | ldaImm imm8 => exact ⟨nofun, fun _ => rfl⟩
  | ldaZp zp8 => exact ⟨nofun, fun _ => rfl⟩
  | ldaZpx base8 => exact ⟨nofun, fun _ => rfl⟩
  | unhandled op => exact ⟨nofun, fun _ => rfl⟩

end Sys2Proof.Machine
end

section
/-! What every step keeps and what it costs. -/

namespace Sys2Proof.Machine

theorem exec_next_status {i : Instr} {s t : State} (h : exec i s = .next t) : t.status = s.status := by
  obtain ⟨-, rfl⟩ := exec_eq_next.mp h
  simp

/-- What a completed or faulting instruction leaves in memory and in the budget. -/
theorem exec_leaves {i : Instr} {s t : State}
    (h : exec i s = .next t ∨ ∃ needed left, exec i s = .fault (.budgetUnderflow needed left t)) :
    t.cyc ≤ s.cyc ∧ MemLeftBy i s t.mem := by
  rcases h with h | ⟨needed, left, h⟩
  · obtain ⟨-, rfl⟩ := exec_eq_next.mp h
    exact ⟨Nat.sub_le _ _, effect_mem i s⟩
  · have hcut := exec_fault_cutShort h
    exact ⟨hcut.cyc.trans_le hcut.left_le, hcut.mem⟩

/-- A step that faults is a cut iteration of a running core. -/
theorem step_fault {s : State} {f : Fault} (h : step s = .fault f) : exec (fetchInstr s) s = .fault f := by
  rcases step_cases s with ⟨-, hstep⟩ | ⟨-, -, hstep⟩ | ⟨-, -, hstep⟩ <;> rw [hstep] at h
  · cases h
  · cases h
  · exact h

/-- What a step leaves in memory and in the budget, completing or faulting. -/
theorem step_leaves {s t : State}
    (h : step s = .next t ∨ ∃ needed left, step s = .fault (.budgetUnderflow needed left t)) :
    t.cyc ≤ s.cyc ∧ MemLeftBy (fetchInstr s) s t.mem := by
  rcases step_cases s with ⟨-, hstep⟩ | ⟨-, -, hstep⟩ | ⟨-, -, hstep⟩ <;> rw [hstep] at h
  · obtain h | ⟨_, _, h⟩ := h <;> cases h
    exact ⟨le_rfl, .inl rfl⟩
  · obtain h | ⟨_, _, h⟩ := h <;> cases h
    exact ⟨le_rfl, .inl rfl⟩
  · exact exec_leaves h

/-- Settles O53: an iteration lowers `cyc`, every other step leaves it. -/
theorem stepsNeverRaiseTheBudget : Obligations.StepsNeverRaiseTheBudget := fun _ _ h =>
  have hle := (step_leaves h).1
  ⟨hle, fun _ => hle.trans⟩

/-- Settles O49: the only cells a step writes are those of a JSR's push. -/
theorem stepsWriteOnlyStackCells : Obligations.StepsWriteOnlyStackCells := fun _ _ h =>
  have hmem := (step_leaves h).2
  ⟨fun _ => hmem.memRead_above, hmem.eq_of_not_call⟩

/-- Settles O50: the iteration that completes has paid the cost of the instruction it fetched. -/
theorem iterationCostsItsTableCycles : Obligations.IterationCostsItsTableCycles := by
  intro s t hrun hcyc h op
  rw [step_iteration hrun hcyc] at h
  have hstatus := (exec_next_status h).trans hrun
  obtain ⟨hpaid, rfl⟩ := exec_eq_next.mp h
  have hcost : s.cyc - costOf (fetchInstr s) + costOf (fetchInstr s) = s.cyc := Nat.sub_add_cancel hpaid
  nth_rw 2 [costOf_fetchInstr] at hcost
  exact ⟨hcost, hstatus⟩

/-- Settles O51: the table's cost is that of the instruction fetched, which is paid for or cut short. -/
theorem iterationFaultsExactlyWhenBudgetIsShort : Obligations.IterationFaultsExactlyWhenBudgetIsShort := by
  intro s hrun hcyc op cost
  have hcost : costOf (fetchInstr s) = cost := costOf_fetchInstr s
  rw [step_iteration hrun hcyc, ← hcost]
  refine ⟨fun h => ?_, fun h => ⟨_, exec_of_paid h⟩⟩
  obtain ⟨needed, left, frozen, hfault, -⟩ := exec_of_unpaid h
  exact ⟨needed, left, frozen, hfault⟩

/-- Settles O52: the fault is that of the instruction cut short, which freezes a halted core. -/
theorem faultFreezesTheCore : Obligations.FaultFreezesTheCore := by
  intro s frozen needed left h
  have hcut := exec_fault_cutShort (step_fault h)
  have hhalted := hcut.status
  exact ⟨hhalted, hcut.cyc, hcut.short, hcut.needed, hcut.a, hcut.x, hcut.y, hcut.flags, hcut.sp,
    step_stopped (by simp [hhalted]), fun _ => by simp [command, launch, hhalted]⟩

/-- A load leaves the two result flags apart and no other instruction writes them (R27, R130). -/
theorem exec_keeps_flagsApart {i : Instr} {s t : State} (h : exec i s = .next t)
    (hs : ¬ (s.flags.zero = true ∧ s.flags.negative = true)) :
    ¬ (t.flags.zero = true ∧ t.flags.negative = true) := by
  cases hi : isLoad i with
  | true => rw [exec_load_flags hi h]; exact flagsZN_not_both _ _
  | false => rwa [exec_nonload_flags hi h]

theorem exec_keeps_inv {i : Instr} {s t : State} (hs : s.Inv) (h : exec i s = .next t) : t.Inv := by
  refine ⟨?_, exec_keeps_flagsApart h hs.flagsApart⟩
  obtain ⟨-, rfl⟩ := exec_eq_next.mp h
  exact (effect_mem i s).wf hs.memWf

/-- Settles O54: every instruction keeps the invariant, and a step that performs none changes the status alone. -/
theorem stepKeepsInvariant : Obligations.StepKeepsInvariant := by
  intro s t hs h
  rcases step_cases s with ⟨-, hstep⟩ | ⟨-, -, hstep⟩ | ⟨-, -, hstep⟩ <;> rw [hstep] at h
  · cases h; exact hs
  · cases h; exact ⟨hs.memWf, hs.flagsApart⟩
  · exact exec_keeps_inv hs h

end Sys2Proof.Machine
end

section
/-! A whole run (R110, R112, R115), without its fuel: `finish` runs a state to its end, by the equations of the three
things the loop can do, and one induction serves every statement about runs. -/

namespace Sys2Proof.Machine

/-- A running state run to its end, with the fuel `executeRun` gives the loop. -/
def finish (s : State) : Result State := runLoop (s.cyc + 1) s

/-- The state of a run after an iteration that its budget pays for. -/
def afterIteration (s : State) : State :=
  (effect (fetchInstr s) s).setCyc (s.cyc - costOf (fetchInstr s))

@[simp] theorem afterIteration_status (s : State) : (afterIteration s).status = s.status := by
  simp [afterIteration]

@[simp] theorem afterIteration_cyc (s : State) : (afterIteration s).cyc = s.cyc - costOf (fetchInstr s) := rfl

theorem runLoop_of_not_running {s : State} (n : Nat) (h : s.status ≠ .running) : runLoop n s = .next s := by
  cases n with
  | zero => rfl
  | succ n =>
    rw [runLoop]
    cases hs : s.status <;> simp_all

theorem runLoop_succ {s : State} (n : Nat) (h : s.status = .running) :
    runLoop (n + 1) s = andThen (step s) (runLoop n) := by
  rw [runLoop]
  simp only [h]

theorem step_of_paid {s : State} (hrun : s.status = .running) (hpaid : costOf (fetchInstr s) ≤ s.cyc) :
    step s = .next (afterIteration s) := by
  have hcyc : s.cyc ≠ 0 := Nat.one_le_iff_ne_zero.mp ((costOf_pos _).trans hpaid)
  rw [step_iteration hrun hcyc, exec_of_paid hpaid, afterIteration]

/-- Induction along a run: its normal end, an iteration that is paid for, an iteration that is cut. -/
theorem run_induction {motive : (s : State) → s.status = .running → Prop}
    (ended : ∀ s hrun, s.cyc = 0 → motive s hrun)
    (paid : ∀ s hrun, costOf (fetchInstr s) ≤ s.cyc →
      motive (afterIteration s) ((afterIteration_status s).trans hrun) → motive s hrun)
    (cut : ∀ s hrun, s.cyc ≠ 0 → s.cyc < costOf (fetchInstr s) → motive s hrun)
    (s : State) (hrun : s.status = .running) : motive s hrun := by
  induction hn : s.cyc using Nat.strong_induction_on generalizing s with
  | _ n ih =>
    rcases Nat.eq_zero_or_pos s.cyc with h0 | h0
    · exact ended s hrun h0
    rcases Nat.lt_or_ge s.cyc (costOf (fetchInstr s)) with hc | hc
    · exact cut s hrun h0.ne' hc
    · have hless : s.cyc - costOf (fetchInstr s) < n := by have := costOf_pos (fetchInstr s); omega
      exact paid s hrun hc (ih _ hless _ _ rfl)

/-- Fuel beyond the budget is not used: every iteration lowers `cyc`. -/
theorem runLoop_of_cyc_lt {s : State} (hrun : s.status = .running) {n : Nat} (hn : s.cyc < n) :
    runLoop n s = finish s := by
  induction s, hrun using run_induction generalizing n with
  | ended s hrun hc =>
    obtain ⟨n, rfl⟩ := Nat.exists_eq_add_one.mpr (Nat.zero_lt_of_lt hn)
    rw [finish, runLoop_succ n hrun, runLoop_succ s.cyc hrun, step_end hrun hc, andThen_next, andThen_next,
      runLoop_of_not_running n (by simp), runLoop_of_not_running s.cyc (by simp)]
  | paid s hrun hc ih =>
    have hcost := costOf_pos (fetchInstr s)
    obtain ⟨n, rfl⟩ := Nat.exists_eq_add_one.mpr (Nat.zero_lt_of_lt hn)
    rw [finish, runLoop_succ n hrun, runLoop_succ s.cyc hrun, step_of_paid hrun hc, andThen_next, andThen_next,
      ih (by simp; omega), ih (by simp; omega)]
  | cut s hrun hc hshort =>
    obtain ⟨n, rfl⟩ := Nat.exists_eq_add_one.mpr (Nat.zero_lt_of_lt hn)
    obtain ⟨needed, left, frozen, hfault, -⟩ := exec_of_unpaid hshort
    rw [finish, runLoop_succ n hrun, runLoop_succ s.cyc hrun, step_iteration hrun hc, hfault, andThen_fault,
      andThen_fault]

/-- R112 (a): with no cycle left the run ends normally. -/
theorem finish_of_zero {s : State} (hrun : s.status = .running) (hc : s.cyc = 0) :
    finish s = .next (s.setStatus .idle) := by
  rw [finish, runLoop_succ _ hrun, step_end hrun hc, andThen_next, runLoop_of_not_running _ (by simp)]

theorem finish_of_paid {s : State} (hrun : s.status = .running) (hpaid : costOf (fetchInstr s) ≤ s.cyc) :
    finish s = finish (afterIteration s) := by
  have hcost := costOf_pos (fetchInstr s)
  rw [finish, runLoop_succ _ hrun, step_of_paid hrun hpaid, andThen_next]
  exact runLoop_of_cyc_lt (by simpa using hrun) (by simp; omega)

/-- R112 (b): an iteration the budget cuts ends the run in its fault. -/
theorem finish_of_unpaid {s : State} (hrun : s.status = .running) (hc : s.cyc ≠ 0)
    (hshort : s.cyc < costOf (fetchInstr s)) :
    ∃ needed left frozen, finish s = .fault (.budgetUnderflow needed left frozen) ∧
      CutShort (fetchInstr s) s needed left frozen := by
  obtain ⟨needed, left, frozen, hfault, hcut⟩ := exec_of_unpaid hshort
  refine ⟨needed, left, frozen, ?_, hcut⟩
  rw [finish, runLoop_succ _ hrun, step_iteration hrun hc, hfault, andThen_fault]

@[simp] theorem launchEffect_status (budget : Nat) (s : State) : (launchEffect budget s).status = .running := rfl
@[simp] theorem launchEffect_cyc (budget : Nat) (s : State) : (launchEffect budget s).cyc = budget := rfl

/-- In IDLE a run is what the launch leaves, run to its end (R110, R200). -/
theorem executeRun_of_idle (budget : Nat) {s : State} (h : s.status = .idle) :
    executeRun budget s = finish (launchEffect budget s) := by
  rw [executeRun, command, launch_eq_next.mpr ⟨h, rfl⟩, andThen_next, finish, launchEffect_cyc]

/-- In any other status no run starts (R201). -/
theorem executeRun_of_not_idle (budget : Nat) {s : State} (h : s.status ≠ .idle) :
    ∃ e, executeRun budget s = .refused e := by
  unfold executeRun command launch
  cases hs : s.status <;> simp_all

theorem idle_of_executeRun_next {budget : Nat} {s t : State} (h : executeRun budget s = .next t) :
    s.status = .idle := by
  by_contra hs
  obtain ⟨e, hrefused⟩ := executeRun_of_not_idle budget hs
  cases hrefused.symm.trans h

end Sys2Proof.Machine
end

section
/-! How runs end (R112, R114, R115, R118). -/

namespace Sys2Proof.Machine

/-- A run ends normally with no cycle left, or in the fault of an instruction cut short. -/
theorem finish_ends {s : State} (hrun : s.status = .running) :
    (∃ t, finish s = .next t ∧ t.status = .idle ∧ t.cyc = 0) ∨
    (∃ needed left frozen, finish s = .fault (.budgetUnderflow needed left frozen) ∧
      frozen.status = .halted ∧ frozen.cyc = left ∧ left < needed) := by
  induction s, hrun using run_induction with
  | ended s hrun hc => exact .inl ⟨_, finish_of_zero hrun hc, rfl, hc⟩
  | paid s hrun hc ih => rwa [finish_of_paid hrun hc]
  | cut s hrun hc hshort =>
    obtain ⟨needed, left, frozen, hfault, hcut⟩ := finish_of_unpaid hrun hc hshort
    exact .inr ⟨needed, left, frozen, hfault, hcut.status, hcut.cyc, hcut.short⟩

/-- Settles O10: the run of the launched state, by induction along it. -/
theorem runEndsIdleOrHalted : Obligations.RunEndsIdleOrHalted := by
  intro budget s h
  rw [executeRun_of_idle budget h]
  exact finish_ends (launchEffect_status budget s)

/-- Settles O9: the launched state has no cycle left. -/
theorem executeZeroPerformsNoIteration : Obligations.ExecuteZeroPerformsNoIteration := by
  intro s h
  rw [executeRun_of_idle 0 h, finish_of_zero rfl rfl, ← h]
  rfl

/-- The state of a run with `b` more cycles in its budget. -/
def withMore (b : Nat) (s : State) : State := s.setCyc (s.cyc + b)

/-- Cycles beyond those an iteration needs are left over. -/
theorem afterIteration_withMore (b : Nat) {s : State} (hpaid : costOf (fetchInstr s) ≤ s.cyc) :
    afterIteration (withMore b s) = withMore b (afterIteration s) := by
  have hfetch : fetchInstr (withMore b s) = fetchInstr s := rfl
  have hleft : s.cyc + b - costOf (fetchInstr s) = s.cyc - costOf (fetchInstr s) + b := Nat.sub_add_comm hpaid
  rw [afterIteration, hfetch, withMore, effect_setCyc, setCyc_cyc, hleft]
  rfl

/-- Where a run ends normally, one with `b` more cycles goes on as a run of budget `b` from there. -/
theorem finish_withMore {s t : State} (hrun : s.status = .running) (b : Nat) (h : finish s = .next t) :
    finish (withMore b s) = finish (launchEffect b t) := by
  induction s, hrun using run_induction with
  | ended s hrun hc =>
    rw [finish_of_zero hrun hc] at h
    cases h
    rw [withMore, hc, Nat.zero_add, launchEffect, ← hrun]
    rfl
  | paid s hrun hc ih =>
    have hpaid : costOf (fetchInstr (withMore b s)) ≤ (withMore b s).cyc := Nat.le_add_right_of_le hc
    rw [finish_of_paid hrun hc] at h
    rw [finish_of_paid (s := withMore b s) hrun hpaid, afterIteration_withMore b hc, ih h]
  | cut s hrun hc hshort =>
    obtain ⟨needed, left, frozen, hfault, -⟩ := finish_of_unpaid hrun hc hshort
    cases hfault.symm.trans h

/-- Settles O11: the summed budget is the first one with more cycles in it. -/
theorem successiveRunsCompose : Obligations.SuccessiveRunsCompose := by
  intro b1 b2 s t u h1 h2
  have hs := idle_of_executeRun_next h1
  rw [executeRun_of_idle _ hs] at h1
  rw [executeRun_of_idle _ (idle_of_executeRun_next h2)] at h2
  rw [executeRun_of_idle _ hs, ← h2]
  exact finish_withMore (launchEffect_status b1 s) b2 h1

/-- The next instruction costs its own, the rest is counted from its effect (R210). -/
theorem costOfFirst_succ (k : Nat) (s : State) :
    costOfFirst (k + 1) s =
      costOf (fetchInstr s) + costOfFirst k ((effect (fetchInstr s) s).setCyc 0) := by
  have hexec : exec (fetchInstr s) (s.setCyc (costOf (fetchInstr s))) =
      .next ((effect (fetchInstr s) s).setCyc 0) := by
    rw [exec_of_paid le_rfl, effect_setCyc, setCyc_cyc, Nat.sub_self]
    rfl
  rw [costOfFirst, ← costOf_fetchInstr, hexec]

/-- The instructions met depend on neither the budget nor the status. -/
theorem costOfFirst_setCyc (k n : Nat) (s : State) : costOfFirst k (s.setCyc n) = costOfFirst k s := by
  cases k with
  | zero => rfl
  | succ k =>
    have hfetch : fetchInstr (s.setCyc n) = fetchInstr s := rfl
    rw [costOfFirst_succ, costOfFirst_succ, hfetch, effect_setCyc]
    rfl

theorem costOfFirst_setStatus (k : Nat) (r : RunStatus) (s : State) :
    costOfFirst k (s.setStatus r) = costOfFirst k s := by
  induction k generalizing s with
  | zero => rfl
  | succ k ih =>
    have hfetch : fetchInstr (s.setStatus r) = fetchInstr s := rfl
    rw [costOfFirst_succ, costOfFirst_succ, hfetch, effect_setStatus, costOfFirst_setCyc, costOfFirst_setCyc, ih]

/-- The budget of a run under way is the cost of its first instructions exactly when it pays for the next one and what
that leaves is the cost of those after it. -/
theorem exists_costOfFirst_eq_cyc {s : State} (hc : s.cyc ≠ 0) :
    (∃ k, costOfFirst k s = s.cyc) ↔
      costOf (fetchInstr s) ≤ s.cyc ∧ ∃ k, costOfFirst k (afterIteration s) = (afterIteration s).cyc := by
  have hnext (k : Nat) : costOfFirst (k + 1) s = costOf (fetchInstr s) + costOfFirst k (afterIteration s) := by
    rw [costOfFirst_succ, costOfFirst_setCyc, afterIteration, costOfFirst_setCyc]
  simp only [afterIteration_cyc]
  constructor
  · rintro ⟨_ | k, hk⟩
    · exact absurd hk.symm hc
    · rw [hnext] at hk
      exact ⟨by omega, k, by omega⟩
  · rintro ⟨hpaid, k, hk⟩
    exact ⟨k + 1, by rw [hnext]; omega⟩

/-- A run ends normally exactly when its budget is the cost of the first instructions it meets (R115). -/
theorem finish_next_iff {s : State} (hrun : s.status = .running) :
    (∃ t, finish s = .next t) ↔ ∃ k, costOfFirst k s = s.cyc := by
  induction s, hrun using run_induction with
  | ended s hrun hc => exact ⟨fun _ => ⟨0, hc.symm⟩, fun _ => ⟨_, finish_of_zero hrun hc⟩⟩
  | paid s hrun hc ih =>
    have hpos : s.cyc ≠ 0 := Nat.one_le_iff_ne_zero.mp ((costOf_pos _).trans hc)
    rw [finish_of_paid hrun hc, ih, exists_costOfFirst_eq_cyc hpos, and_iff_right hc]
  | cut s hrun hc hshort =>
    obtain ⟨needed, left, frozen, hfault, -⟩ := finish_of_unpaid hrun hc hshort
    rw [exists_costOfFirst_eq_cyc hc]
    simp [hfault, Nat.not_le.mpr hshort]

/-- Settles O12: the launched state meets the instructions the idle one stands before. -/
theorem runEndsNormallyOnInstructionBoundary : Obligations.RunEndsNormallyOnInstructionBoundary := by
  intro budget s h
  have hcost (k : Nat) : costOfFirst k (launchEffect budget s) = costOfFirst k s := by
    rw [launchEffect, costOfFirst_setStatus, costOfFirst_setCyc]
  rw [endsNormally, executeRun_of_idle budget h, finish_next_iff (launchEffect_status budget s)]
  simp only [hcost, launchEffect_cyc]

/-- Over unhandled opcodes a run under way pays one cycle a byte to its end (R150). -/
theorem finish_of_unhandled {s : State} (hrun : s.status = .running)
    (hmem : ∀ addr, isHandled (memRead s.mem addr) = false) :
    finish s = .next { s with pc := s.pc + BitVec.ofNat 16 s.cyc, cyc := 0, status := .idle } := by
  induction s, hrun using run_induction with
  | ended s hrun hc =>
    rw [finish_of_zero hrun hc, hc, BitVec.add_zero, ← hc]
    rfl
  | paid s hrun hc ih =>
    have hafter : afterIteration s = (s.setPc (s.pc + 1#16)).setCyc (s.cyc - 1) := by
      rw [afterIteration, fetchInstr_of_not_handled (hmem s.pc)]
      rfl
    have hpos : 1 ≤ s.cyc := (costOf_pos _).trans hc
    have hpc : s.pc + 1#16 + BitVec.ofNat 16 (s.cyc - 1) = s.pc + BitVec.ofNat 16 s.cyc := by
      rw [BitVec.add_assoc, ← BitVec.ofNat_add, Nat.add_sub_cancel' hpos]
    rw [hafter] at ih
    rw [finish_of_paid hrun hc, hafter, ih hmem, setCyc_pc, setCyc_cyc, setPc_pc, hpc]
    rfl
  | cut s hrun hc hshort =>
    rw [fetchInstr_of_not_handled (hmem s.pc), costOf] at hshort
    omega

/-- Settles O13: no iteration is cut, since each costs one cycle. -/
theorem unhandledOnlyRunEndsForEveryBudget : Obligations.UnhandledOnlyRunEndsForEveryBudget := by
  intro budget s h hmem
  rw [executeRun_of_idle budget h, finish_of_unhandled (launchEffect_status budget s) hmem, ← h]
  rfl

end Sys2Proof.Machine
end

section
/-! The host's session (R197): after each move the core is stopped, its memory canonical. -/

namespace Sys2Proof.Machine

/-- How the host finds the machine between its moves. -/
def Stopped (s : State) : Prop := s.status ≠ .running ∧ Memory.wf s.mem

/-- A run leaves the core stopped, whichever way it ends. -/
theorem stateLeft_finish_stopped (s0 : State) {s : State} (hrun : s.status = .running) (hwf : Memory.wf s.mem) :
    Stopped (stateLeft s0 (finish s)) := by
  induction s, hrun using run_induction with
  | ended s hrun hc =>
    rw [finish_of_zero hrun hc]
    exact ⟨nofun, hwf⟩
  | paid s hrun hc ih =>
    rw [finish_of_paid hrun hc]
    exact ih ((effect_mem _ s).wf hwf)
  | cut s hrun hc hshort =>
    obtain ⟨needed, left, frozen, hfault, hcut⟩ := finish_of_unpaid hrun hc hshort
    rw [hfault]
    exact ⟨by simp [stateLeft, hcut.status], hcut.mem.wf hwf⟩

theorem stateLeft_executeRun_stopped (budget : Nat) {s : State} (hs : Stopped s) :
    Stopped (stateLeft s (executeRun budget s)) := by
  by_cases hidle : s.status = .idle
  · rw [executeRun_of_idle budget hidle]
    exact stateLeft_finish_stopped s (launchEffect_status budget s) hs.2
  · obtain ⟨e, hrefused⟩ := executeRun_of_not_idle budget hidle
    rw [hrefused]
    exact hs

/-- A register or flag write, accepted or refused, leaves status and memory. -/
theorem stateLeft_registerWrite_stopped {s t : State} (hs : Stopped s) (ht : Stopped t) :
    Stopped (stateLeft s (registerWrite s t)) := by
  unfold registerWrite
  cases s.status with
  | unreset => exact hs
  | running => exact hs
  | idle => exact ht
  | halted => exact ht

theorem stateLeft_whileStopped {s : State} (t : State) (hs : s.status ≠ .running) :
    stateLeft s (whileStopped s t) = t := by
  rw [whileStopped_of_not_running t hs, stateLeft]

theorem hostMove_stopped {s : State} (c : Command) (hs : Stopped s) : Stopped (hostMove s c) := by
  have ⟨hstatus, hwf⟩ := hs
  cases c with
  | execute budget => exact stateLeft_executeRun_stopped budget hs
  | reset =>
    rw [hostMove, command, stateLeft_whileStopped _ hstatus]
    exact ⟨nofun, memWf_nil⟩
  | writeCell addr v =>
    rw [hostMove, command, stateLeft_whileStopped _ hstatus]
    exact ⟨hstatus, memWrite_wf addr v hwf⟩
  | writePc v => exact stateLeft_registerWrite_stopped hs hs
  | writeSp v => exact stateLeft_registerWrite_stopped hs hs
  | writeA v => exact stateLeft_registerWrite_stopped hs hs
  | writeX v => exact stateLeft_registerWrite_stopped hs hs
  | writeY v => exact stateLeft_registerWrite_stopped hs hs
  | writeFlag f b => exact stateLeft_registerWrite_stopped hs hs

theorem session_stopped {s : State} (cs : List Command) (hs : Stopped s) : Stopped (session cs s) := by
  induction cs generalizing s with
  | nil => exact hs
  | cons c cs ih => exact ih (hostMove_stopped c hs)

/-- Settles O14: every move keeps the property, so every sequence of moves does. -/
theorem sessionLeavesCoreStopped : Obligations.SessionLeavesCoreStopped := fun cs _ hstatus hwf =>
  session_stopped cs ⟨hstatus, hwf⟩

end Sys2Proof.Machine
end

section
/-! The host's single moves (R11, R190 to R201) and what a stopped core does with them. -/

namespace Sys2Proof.Machine

/-- Settles O2: no cell is listed and both flags are clear. -/
theorem resetStateMeetsInvariant : Obligations.ResetStateMeetsInvariant := ⟨⟨memWf_nil, by decide⟩, rfl⟩

theorem registerWrite_of_stopped {s : State} (t : State) (h : s.status = .idle ∨ s.status = .halted) :
    registerWrite s t = .next t :=
  registerWrite_eq_next.mpr ⟨h, rfl⟩

theorem registerWrite_of_unreset {s : State} (t : State) (h : s.status = .unreset) :
    registerWrite s t = .refused .writeUnreset := by
  simp only [registerWrite, h]

theorem registerWrite_of_running {s : State} (t : State) (h : s.status = .running) :
    registerWrite s t = .refused .hostWhileRunning := by
  simp only [registerWrite, h]

theorem whileStopped_of_running {α : Type} {s : State} (v : α) (h : s.status = .running) :
    whileStopped s v = .refused .hostWhileRunning := by
  simp only [whileStopped, h]

theorem launch_of_unreset {s : State} (budget : Nat) (h : s.status = .unreset) :
    launch budget s = .refused .executeUnreset := by
  simp only [launch, h]

theorem launch_of_halted {s : State} (budget : Nat) (h : s.status = .halted) :
    launch budget s = .refused .executeHalted := by
  simp only [launch, h]

theorem launch_of_running {s : State} (budget : Nat) (h : s.status = .running) :
    launch budget s = .refused .hostWhileRunning := by
  simp only [launch, h]

/-- Settles O3: the constructed core is UNRESET, with no cell listed. -/
theorem constructedCoreNeedsReset : Obligations.ConstructedCoreNeedsReset :=
  ⟨rfl, memRead_nil, fun budget => launch_of_unreset (s := State.constructed) budget rfl,
    command_reset_of_not_running nofun⟩

/-- Settles O4: the launch in each status. -/
theorem executeAcceptedOnlyInIdle : Obligations.ExecuteAcceptedOnlyInIdle := fun budget _ =>
  ⟨fun h => launch_eq_next.mpr ⟨h, rfl⟩, launch_of_unreset budget, launch_of_halted budget, launch_of_running budget⟩

/-- Settles O5: each command is a launch, a register write or a move of a stopped core, and each query the last. -/
theorem hostHasNoMoveDuringRun : Obligations.HostHasNoMoveDuringRun := by
  refine fun s h => ⟨fun c => ?_, fun q => whileStopped_of_running _ h⟩
  cases c with
  | execute budget => exact launch_of_running budget h
  | reset => exact whileStopped_of_running _ h
  | writeCell addr v => exact whileStopped_of_running _ h
  | writePc v => exact registerWrite_of_running _ h
  | writeSp v => exact registerWrite_of_running _ h
  | writeA v => exact registerWrite_of_running _ h
  | writeX v => exact registerWrite_of_running _ h
  | writeY v => exact registerWrite_of_running _ h
  | writeFlag f b => exact registerWrite_of_running _ h

/-- Settles O6: all these moves are register writes, accepted after a reset and refused before. -/
theorem hostRegisterWriteSetsOneItem : Obligations.HostRegisterWriteSetsOneItem := by
  refine fun s => ⟨fun h => ?stopped, fun h v b f => ?unreset⟩
  case stopped =>
    have accepted (t : State) : registerWrite s t = .next t := registerWrite_of_stopped t h
    exact ⟨fun _ => accepted _, fun _ => accepted _, fun _ => accepted _, fun _ => accepted _, fun _ => accepted _,
      fun _ => accepted _, fun _ => accepted _, fun _ => accepted _, fun _ => accepted _, fun _ => accepted _,
      fun _ => accepted _, fun _ => accepted _⟩
  case unreset =>
    have refused (t : State) : registerWrite s t = .refused .writeUnreset := registerWrite_of_unreset t h
    exact ⟨refused _, refused _, refused _, refused _, refused _, fun _ => refused _⟩

/-- Settles O7: the move is the byte write. -/
theorem hostCellWriteSetsOneCell : Obligations.HostCellWriteSetsOneCell := fun s addr v hstatus hwf =>
  ⟨s.setMem (memWrite s.mem addr v), whileStopped_of_not_running _ hstatus, rfl,
    memRead_memWrite_self addr v hwf, fun _ hb => memRead_memWrite_ne v hb⟩

/-- Settles O8: outside a run every query is answered. -/
theorem hostReadsFindTheState : Obligations.HostReadsFindTheState := by
  intro s
  have answered (h : s.status ≠ .running) (q : Query) : query q s = .next (answer q s) :=
    whileStopped_of_not_running _ h
  refine ⟨fun h addr => answered h _, fun h => ?_⟩
  have hstopped : s.status ≠ .running := by rcases h with h | h <;> simp [h]
  exact ⟨answered hstopped _, answered hstopped _, answered hstopped _, answered hstopped _, answered hstopped _,
    answered hstopped _, answered hstopped _, answered hstopped _, answered hstopped _, answered hstopped _,
    answered hstopped _, answered hstopped _, answered hstopped _, answered hstopped _⟩

/-- Settles O29: the normal end of the run. -/
theorem stepEndsRunAtZeroBudget : Obligations.StepEndsRunAtZeroBudget := fun _ => step_end

/-- Of the commands accepted in HALTED only `reset` changes the status (R162). -/
theorem command_halted_next {c : Command} {s t : State} (hs : s.status = .halted) (hc : c ≠ .reset)
    (h : command c s = .next t) : t.status = .halted := by
  have written {u : State} (h : registerWrite s u = .next t) (hu : u.status = s.status) : t.status = .halted := by
    obtain ⟨-, rfl⟩ := registerWrite_eq_next.mp h
    exact hu.trans hs
  cases c with
  | reset => exact absurd rfl hc
  | execute budget => cases (launch_of_halted budget hs).symm.trans h
  | writeCell addr v =>
    cases (whileStopped_of_not_running _ (by simp [hs])).symm.trans h
    exact hs
  | writePc v => exact written h rfl
  | writeSp v => exact written h rfl
  | writeA v => exact written h rfl
  | writeX v => exact written h rfl
  | writeY v => exact written h rfl
  | writeFlag f b => exact written h rfl

/-- Settles O30: a stopped core's step answers the same state, and the way out of HALTED is `reset`. -/
theorem stoppedCoreDoesNothing : Obligations.StoppedCoreDoesNothing := fun _ =>
  ⟨step_stopped, fun hs =>
    ⟨fun _ _ => command_halted_next hs, _, command_reset_of_not_running (by simp [hs]), rfl⟩⟩

end Sys2Proof.Machine
end
